-- ==== Sys2Proof/Word.lean ====
section
/-! DEFINITION. The word of the machine: the 8-bit byte (00_scope.md R7, R11). -/

namespace Sys2Proof

/-- `Byte` is the set 0..255 (00_scope.md R11): memory cells, registers, opcode and operand bytes are all of this
one width (`CELL_WIDTH` of R7, `XLEN` = 8 of R8, which is the spec's decision D1: log entry 14). -/
abbrev Byte := BitVec 8

end Sys2Proof
end

