-- ==== Sys2Proof/Config.lean ====
section
/-! DEFINITION. What one implementation fixes: the OPEN parameters of 00_scope.md R8, which the spec makes arguments of
a model. The sizes R7 fixes (256 cells, 8 registers, 8-bit bytes, initial pc 0, load address 0) are written as the
spec's numerals where they are used. -/

namespace Sys2Proof

/-- The constraint 30_encoding.md R79 puts on `P_ADD_OPCODE = some c`: `c[7:6] = 0b10`, `c[4] = 0` and
`c ∉ {0x82, 0x47, 0x01}`. -/
def addOpcodeLegal (c : Byte) : Bool :=
  c.extractLsb' 6 2 == 0b10#2 && c.extractLsb' 4 1 == 0#1 && c != 0x82#8 && c != 0x47#8 && c != 0x01#8

/-- A value of `P_ADD_OPCODE` other than `none` (30_encoding.md R79), with the constraint of R79. -/
structure AddOpcode where
  byte : Byte
  legal : addOpcodeLegal byte = true
deriving DecidableEq, Repr

/-- `P_PC_AFTER_UNRECOGNIZED` of 41_engine.md R111: `ADVANCE` or `HOLD`. -/
inductive PcPolicy where
  | advance
  | hold
deriving DecidableEq, Repr

/-- `P_SNAPSHOT_WINDOW` of 70_reset_and_hazards.md R178: an address range, as its first address and how many
addresses it has. -/
structure Window where
  first : Nat
  count : Nat
deriving DecidableEq, Repr

/-- The four OPEN parameters of 00_scope.md R8. `regReset` gives a value for every register (log entry 1): it is
`P_REG_RESET` with no `none` in it. -/
structure Params where
  /-- `P_ADD_OPCODE` (30_encoding.md R79, D4). -/
  addOpcode : Option AddOpcode
  /-- `P_REG_RESET` (10_state.md R38, R39, D6). -/
  regReset : Vector Byte 8
  /-- `P_PC_AFTER_UNRECOGNIZED` (41_engine.md R111, D9). -/
  pcAfterUnrecognized : PcPolicy
  /-- `P_SNAPSHOT_WINDOW` (70_reset_and_hazards.md R178, D16). -/
  snapshotWindow : Window
deriving DecidableEq, Repr

end Sys2Proof
end

