-- ==== Sys2Proof/Machine/Defaults.lean ====
section
/-! DEFINITION. The values the OPEN parameters have in `State.reset`: the defaults of 00_scope.md R8. -/

namespace Sys2Proof.Machine

/-- `P_ADD_OPCODE`, default `none` (30_encoding.md R79, D4). DESIGN CHOICE (the spec leaves it OPEN): log entry 3. -/
def defaultAddOpcode : Option AddOpcode := none

/-- `P_REG_RESET` as the model instantiates it: every register 0. DESIGN CHOICE (the spec gives none, D6): log
entry 1, unsafe. -/
def defaultRegReset : Vector Byte 8 := Vector.replicate 8 0#8

/-- `P_PC_AFTER_UNRECOGNIZED`, default `ADVANCE` (41_engine.md R111, D9). DESIGN CHOICE: log entry 4. -/
def defaultPcAfterUnrecognized : PcPolicy := .advance

/-- `P_SNAPSHOT_WINDOW`, default all 256 cells (70_reset_and_hazards.md R178, D16). DESIGN CHOICE: log entry 5. -/
def defaultSnapshotWindow : Window := { first := 0, count := 256 }

/-- The defaults together. -/
def defaultParams : Params where
  addOpcode := defaultAddOpcode
  regReset := defaultRegReset
  pcAfterUnrecognized := defaultPcAfterUnrecognized
  snapshotWindow := defaultSnapshotWindow

end Sys2Proof.Machine
end

