-- ==== Sys2Proof/Syntax.lean ====
section
/-! DEFINITION. The instructions: one constructor per row of spec/opcode_table.json. -/

namespace Sys2Proof

/-- The instruction set of 30_encoding.md R76 and R79. A register operand is the whole operand byte, not masked to
3 bits: an index of 8..255 is an instruction that faults when it runs (30_encoding.md R75, R86). -/
inductive Instr where
  /-- `LDI Rr, v` (42_ldi.md R125). -/
  | ldi (r v : Byte)
  /-- `PRN Rr` (43_prn.md R130). -/
  | prn (r : Byte)
  /-- `HLT` (44_hlt.md R135). -/
  | hlt
  /-- `ADD Ra, Rb` (40_alu.md R93). -/
  | add (a b : Byte)
deriving DecidableEq, Repr

end Sys2Proof
end

