-- ==== Sys2Proof/WellFormed.lean ====
section
/-! DEFINITION. Which instructions can be encoded. -/

namespace Sys2Proof

/-- An instruction that has an encoding. Every operand byte is allowed (30_encoding.md R75, R86: an index 8..255
assembles and faults at run time); ADD needs an opcode byte: "With `P_ADD_OPCODE = none` the instruction cannot be
encoded" (40_alu.md R93). -/
def Instr.wellFormed (addOp : Option AddOpcode) : Instr → Bool
  | .ldi _ _ => true
  | .prn _ => true
  | .hlt => true
  | .add _ _ => addOp.isSome

end Sys2Proof
end

