-- ==== Sys2Proof/Decode.lean ====
section
/-! DEFINITION. The instruction decoder, the dispatch table, decoding of byte lists and the encoder
(30_encoding.md, 41_engine.md R103, R106). -/

namespace Sys2Proof

/-- `operand_count = ir[7:6]` (30_encoding.md R67). -/
def operandCount (ir : Byte) : Nat := (ir.extractLsb' 6 2).toNat

/-- `sets_pc = (ir[4] = 1)` (30_encoding.md R68; bit 4, not the high-order bits: 90_conflicts.md C1). -/
def setsPc (ir : Byte) : Bool := ir.extractLsb' 4 1 == 1#1

/-- What `instruction_decoder` puts out (30_encoding.md R70). -/
structure Fields where
  opcode : Byte
  operandCount : Nat
  setsPc : Bool
deriving DecidableEq, Repr

/-- `decode(byte)` of 30_encoding.md R70: a pure function that never fails; its opcode is the whole byte (R74). -/
def decodeFields (ir : Byte) : Fields where
  opcode := ir
  operandCount := operandCount ir
  setsPc := setsPc ir

/-- The instruction length in bytes, from the opcode byte alone (30_encoding.md R72). -/
def instrLength (ir : Byte) : Nat := 1 + operandCount ir

/-- The entries of the dispatch table, and UNKNOWN for an opcode with no entry (41_engine.md R106). -/
inductive Handler where
  | ldi
  | prn
  | hlt
  | add
  | unknown
deriving DecidableEq, Repr

/-- `dispatch(opcode)` of 41_engine.md R106, keyed by the whole byte (30_encoding.md R74). -/
def dispatch (addOp : Option AddOpcode) (opcode : Byte) : Handler :=
  if opcode = 0x82#8 then .ldi
  else if opcode = 0x47#8 then .prn
  else if opcode = 0x01#8 then .hlt
  else if addOp.map AddOpcode.byte = some opcode then .add
  else .unknown

/-- The instruction a handler is called for, with the operand bytes `op[1..n]` (41_engine.md R106, R113). -/
def handlerInstr : Handler → List Byte → Option Instr
  | .ldi, ops => match ops with
    | [r, v] => some (.ldi r v)
    | _ => none
  | .prn, ops => match ops with
    | [r] => some (.prn r)
    | _ => none
  | .hlt, ops => match ops with
    | [] => some .hlt
    | _ => none
  | .add, ops => match ops with
    | [a, b] => some (.add a b)
    | _ => none
  | .unknown, _ => none

/-- What decoding a list of bytes gives: an instruction and the bytes after it, or a rejection by name. -/
inductive DecodeResult where
  /-- A known instruction, and the bytes that follow it. -/
  | instr (i : Instr) (rest : List Byte)
  /-- An unknown opcode byte with its operand bytes (30_encoding.md R82), and the bytes that follow them. -/
  | unknown (ir : Byte) (ops : List Byte) (rest : List Byte)
  /-- The operand bytes of `ir` run past the end of the list (41_engine.md R105). -/
  | truncated (ir : Byte)
  /-- There is no opcode byte. -/
  | empty
deriving DecidableEq, Repr

/-- Decoding of a list of bytes, total: the opcode byte, its operand bytes, then the dispatch table, in the order of
41_engine.md R113 (operands before dispatch, R104). -/
def decode (addOp : Option AddOpcode) : List Byte → DecodeResult
  | [] => .empty
  | ir :: rest =>
    if rest.length < operandCount ir then .truncated ir
    else match handlerInstr (dispatch addOp ir) (rest.take (operandCount ir)) with
      | some i => .instr i (rest.drop (operandCount ir))
      | none => .unknown ir (rest.take (operandCount ir)) (rest.drop (operandCount ir))

/-- The bytes of an instruction at ascending addresses (30_encoding.md R65, R77 to R80); `none` for ADD when
`P_ADD_OPCODE` is `none` (R79). -/
def encode (addOp : Option AddOpcode) : Instr → Option (List Byte)
  | .ldi r v => some [0x82#8, r, v]
  | .prn r => some [0x47#8, r]
  | .hlt => some [0x01#8]
  | .add a b => addOp.map fun c => [c.byte, a, b]

/-- The first `n` bytes of a number, least significant first. -/
def bytesOfNat : Nat → Nat → List Byte
  | 0, _ => []
  | n + 1, w => BitVec.ofNat 8 w :: bytesOfNat n (w / 256)

/-- The bytes of a table word: `nbits` bits of `w`, every bit above them 0, laid out over the longest instruction
(4 bytes, 30_encoding.md R72), the first byte first. -/
def tableBytes (nbits w : Nat) : List Byte := bytesOfNat 4 (w % 2 ^ nbits)

/-- The instruction the decoder reads from a table word, under the default of `P_ADD_OPCODE`. -/
def decodeTableWord (nbits w : Nat) : Option Instr :=
  match decode Machine.defaultAddOpcode (tableBytes nbits w) with
  | .instr i _ => some i
  | .unknown _ _ _ => none
  | .truncated _ => none
  | .empty => none

end Sys2Proof
end

