-- ==== Sys2Proof/Machine/State.lean ====
section
/-! DEFINITION. The state of one core instance (10_state.md R20), the reasons a step can stop, and the state after
reset (10_state.md R38). -/

namespace Sys2Proof.Machine

/-- The execution engine state (10_state.md R29; IDLE is the spec's name, D7). -/
inductive EngineState where
  | idle
  | running
  | halted
deriving DecidableEq, Repr

/-- The error kinds of 60_exceptions.md R140. -/
inductive FaultKind where
  /-- "address outside Memory": raised by fetch and operand fetch, and by the memory port (R141). -/
  | outOfBounds
  /-- "index outside register range": raised by the register ports (R142). -/
  | invalidRegister
  /-- "value outside a cell's/register's representable range": raised by the write ports only (R143). -/
  | invalidValue
  /-- "ALU given an unknown op": raised by the ALU's select check only (R144). -/
  | unsupportedOperation
  /-- "opcode not in the dispatch table": raised by dispatch (R146). -/
  | unrecognizedInstruction
  /-- The model fault of 10_state.md R39. Nothing raises it here: every register holds a value (log entries 1
  and 12). -/
  | unwrittenRegister
deriving DecidableEq, Repr

/-- `FaultRecord` of 10_state.md R31, field for field. -/
structure FaultRecord where
  kind : FaultKind
  code : Option Nat
  pc : Nat
  ir : Option Byte
  detail : Nat
  fatal : Bool
deriving DecidableEq, Repr

/-- Memory as a list of cells in canonical form (`Memory.wf`); an address that is not listed reads as 0, the
contents after reset (10_state.md R21 "zero-filled"). -/
abbrev Memory := List Host.Cell

/-- The canonical form: addresses strictly rising, no cell equal to what an unlisted address reads as, and every
address inside 0..255 (10_state.md R21). -/
abbrev Memory.wf (m : Memory) : Prop :=
  m.Pairwise (fun c d => c.1 < d.1) ∧ ∀ c ∈ m, c.2 ≠ 0#8 ∧ c.1 < 256

/-- The complete state of one core instance (10_state.md R20), and the OPEN parameters of the machine as the
model's own last field (log entry 2). -/
structure State where
  /-- Memory `M` (10_state.md R21). -/
  mem : Memory
  /-- The register file `x` (10_state.md R22). -/
  x : Vector Byte 8
  /-- The program counter, 0..256 (10_state.md R27, R28). -/
  pc : Nat
  /-- The execution engine state (10_state.md R29). -/
  state : EngineState
  /-- The fault latch (10_state.md R31). -/
  fault : Option FaultRecord
  /-- The output channel, oldest value first (10_state.md R35). -/
  out : List Byte
  /-- The machine's parameters (00_scope.md R8); nothing writes them. -/
  params : Params
deriving DecidableEq, Repr

/-- Why a step answers a fault. -/
inductive Fault where
  /-- Raised by a turn of `run()` on a HALTED machine whose latch holds a fatal error: the error "propagate[s] to
  the caller of `run()`" (60_exceptions.md R145, 70_reset_and_hazards.md R176; log entry 7). Safe: the machine has
  already stopped and its whole state was the answer of the step that failed. -/
  | aborted (r : FaultRecord)
deriving DecidableEq, Repr

/-- Why a step refuses. -/
inductive Refusal where
  /-- Raised by `exec` for an instruction that has no meaning yet (none here). Safe: the machine stops where the
  hardware goes on. -/
  | notModelled (mnemonic : String)
deriving DecidableEq, Repr

/-- The state after construction and after reset, for given parameters (10_state.md R38, 70_reset_and_hazards.md
R165). -/
def State.resetWith (p : Params) : State where
  mem := []
  x := p.regReset
  pc := 0
  state := .idle
  fault := none
  out := []
  params := p

/-- The machine right after reset, with the default parameters (log entries 1 to 5). -/
def State.reset : State := State.resetWith defaultParams

end Sys2Proof.Machine
end

