-- ==== Sys2Proof/Machine/Ops.lean ====
section
/-! DEFINITION. The named operations over memory and registers, taking an error, and the pc advance. -/

namespace Sys2Proof.Machine

/-! ### One update per field -/

def State.withMem (s : State) (m : Memory) : State := { s with mem := m }
def State.withX (s : State) (x : Vector Byte 8) : State := { s with x := x }
def State.withPc (s : State) (pc : Nat) : State := { s with pc := pc }
def State.withState (s : State) (e : EngineState) : State := { s with state := e }
def State.withFault (s : State) (f : Option FaultRecord) : State := { s with fault := f }
def State.withOut (s : State) (out : List Byte) : State := { s with out := out }

/-! ### Errors -/

/-- What a `raise E(info)` carries (00_scope.md R13): the kind and the detail of 60_exceptions.md R140. -/
structure ErrorInfo where
  kind : FaultKind
  detail : Nat
deriving DecidableEq, Repr

/-- The codes of 60_exceptions.md R140 (D10; log entry 8): `none` only for the model fault. -/
def FaultKind.code : FaultKind → Option Nat
  | .outOfBounds => some 1
  | .invalidRegister => some 2
  | .invalidValue => some 3
  | .unsupportedOperation => some 4
  | .unrecognizedInstruction => some 5
  | .unwrittenRegister => none

/-- The classes of 60_exceptions.md R140: only UnrecognizedInstruction is handled (R146); the model fault behaves as
a fatal error (R145). -/
def FaultKind.fatal : FaultKind → Bool
  | .outOfBounds => true
  | .invalidRegister => true
  | .invalidValue => true
  | .unsupportedOperation => true
  | .unrecognizedInstruction => false
  | .unwrittenRegister => true

/-! ### Memory -/

/-- `M[a]`; an unlisted cell is 0 (10_state.md R21, R38). -/
def Memory.read : Memory → Nat → Byte
  | [], _ => 0#8
  | (k, b) :: t, a => if a = k then b else Memory.read t a

/-- A cell in front of a list, unless it holds what an unlisted address reads as. -/
def Memory.cons (a : Nat) (v : Byte) (m : Memory) : Memory := if v = 0#8 then m else (a, v) :: m

/-- `M[a] <- v`, keeping the canonical form. -/
def Memory.write : Memory → Nat → Byte → Memory
  | [], a, v => Memory.cons a v []
  | (k, b) :: t, a, v =>
    if a < k then Memory.cons a v ((k, b) :: t)
    else if a = k then Memory.cons a v t
    else (k, b) :: Memory.write t a v

/-- `MemRead(a, 1)` of 20_memory.md R46: the address is never reduced modulo 256. -/
def memRead (m : Memory) (a : Nat) : Except ErrorInfo Byte :=
  if 256 ≤ a then .error { kind := .outOfBounds, detail := a } else .ok (m.read a)

/-- `MemWrite(a, 1, v)` of 20_memory.md R47: the address check precedes the value check (D12; log entry 9). -/
def memWrite (m : Memory) (a v : Nat) : Except ErrorInfo Memory :=
  if 256 ≤ a then .error { kind := .outOfBounds, detail := a }
  else if 255 < v then .error { kind := .invalidValue, detail := v }
  else .ok (m.write a (BitVec.ofNat 8 v))

/-! ### The register file -/

/-- `get(i)` of 10_state.md R23. The index is the whole operand byte. Every register holds a value, so the model
fault UnwrittenRegister of R39 never arises (log entries 1 and 12). -/
def regGet (x : Vector Byte 8) (i : Byte) : Except ErrorInfo Byte :=
  if h : i.toNat < 8 then .ok x[i.toNat] else .error { kind := .invalidRegister, detail := i.toNat }

/-- `set(i, v)` of 10_state.md R24: the index check precedes the value check (D12; log entry 9). -/
def regSet (x : Vector Byte 8) (i : Byte) (v : Nat) : Except ErrorInfo (Vector Byte 8) :=
  if h : i.toNat < 8 then
    if 255 < v then .error { kind := .invalidValue, detail := v }
    else .ok (x.set i.toNat (BitVec.ofNat 8 v))
  else .error { kind := .invalidRegister, detail := i.toNat }

/-! ### The output channel -/

/-- `Emit(v)`: `out <- out ++ [v]` (10_state.md R35, 43_prn.md R130, R132). -/
def emit (s : State) (v : Byte) : State := s.withOut (s.out ++ [v])

/-! ### Taking an error, and the way back -/

/-- The opcode byte of the current instruction, "`none` when the fetch itself failed" (60_exceptions.md R140). -/
def fetchedIr (s : State) : Option Byte :=
  match memRead s.mem s.pc with
  | .ok ir => some ir
  | .error _ => none

/-- Taking a fatal error (60_exceptions.md R145): the latch is written with `pc = pc0`, the opcode byte if one was
fetched, and `fatal = true`; the state becomes HALTED; nothing else changes. There is no handler address, saved
status or mode (R149). There is no return beside it: "There is no return-from-trap instruction" (R151), and only
the host's reset leaves HALTED (`State.hostReset` in Machine/HostPort.lean, R166). -/
def abort (e : ErrorInfo) (s : State) : State :=
  (s.withFault (some { kind := e.kind, code := e.kind.code, pc := s.pc, ir := fetchedIr s,
                       detail := e.detail, fatal := e.kind.fatal })).withState .halted

/-! ### The program counter -/

/-- The program counter block (41_engine.md R107, R108): without `sets_pc` the engine advances past the
instruction; with it the handler's value is taken if there is one and the pc is left at `pc0` if there is none. The
sum is not reduced modulo 256. -/
def nextPc (pc0 n : Nat) (setsPc : Bool) (handlerPc : Option Nat) : Nat :=
  if setsPc then handlerPc.getD pc0 else pc0 + 1 + n

/-- The UNKNOWN handler and the pc after it (41_engine.md R110, R111): the handled fault UnrecognizedInstruction with
code 5, `pc = pc0`, the offending byte and `fatal = false`; the state becomes HALTED. -/
def haltUnrecognized (ir : Byte) (s : State) : State :=
  ((s.withFault (some { kind := .unrecognizedInstruction, code := FaultKind.unrecognizedInstruction.code,
                        pc := s.pc, ir := some ir, detail := ir.toNat,
                        fatal := FaultKind.unrecognizedInstruction.fatal })).withState .halted).withPc
    (match s.params.pcAfterUnrecognized with
     | .advance => nextPc s.pc (operandCount ir) (setsPc ir) none
     | .hold => s.pc)

/-! ### Ending a handler -/

/-- What a handler gives the engine (41_engine.md R106, R108): the state with its one architectural write and an
optional new pc, or an error. -/
abbrev HandlerResult := Except ErrorInfo (State × Option Nat)

/-- The end of a step for a known instruction with `n` operands (41_engine.md R113): an error aborts with nothing
written, since it is taken on the state the step began with (R109, R114); otherwise the pc is written last (R107,
R108). -/
def finish (n : Nat) (setsPc : Bool) (s : State) (h : HandlerResult) : Host.Outcome State Fault Refusal :=
  match h with
  | .error e => .next (abort e s)
  | .ok (t, handlerPc) => .next (t.withPc (nextPc s.pc n setsPc handlerPc))

end Sys2Proof.Machine
end

