-- ==== Sys2Proof/Machine/Operands.lean ====
section
/-! DEFINITION. The operand forms of 30_encoding.md R75: a register operand (read or written through the register
file's ports) and an immediate operand. No operand is a memory address. -/

namespace Sys2Proof.Machine

/-- A register operand that is read: `x[i]` for the whole byte `i`. -/
def readRegOperand (s : State) (i : Byte) : Except ErrorInfo Byte := regGet s.x i

/-- A register operand that is written: `x[i] <- v`. -/
def writeRegOperand (s : State) (i : Byte) (v : Nat) : Except ErrorInfo State :=
  match regSet s.x i v with
  | .ok x => .ok (s.withX x)
  | .error e => .error e

/-- An immediate operand: the whole byte as an unsigned value, "neither sign-extended nor scaled". -/
def immOperand (v : Byte) : Nat := v.toNat

end Sys2Proof.Machine
end

