-- ==== Sys2Proof/Machine/Alu.lean ====
section
/-! DEFINITION. alu_dispatch and ADD (40_alu.md). -/

namespace Sys2Proof.Machine

/-- The closed enumeration of supported operations, `AluOp = {ADD}` (40_alu.md R90). -/
inductive AluOp where
  | add
deriving DecidableEq, Repr

/-- What stands on the ALU's op select: an operation of `AluOp`, or a spare code outside it, for which the check of
40_alu.md R92 is kept (90_conflicts.md C14; log entry 13). -/
inductive AluSelect where
  | op (o : AluOp)
  | spare (tag : Nat)
deriving DecidableEq, Repr

/-- `ADD(va, vb) = (va + vb) mod 256` on unsigned values (40_alu.md R91, 10_state.md R26). -/
def aluAdd (va vb : Byte) : Nat := (va.toNat + vb.toNat) % 256

/-- The result of an operation; a tag outside `AluOp` raises UnsupportedOperation (40_alu.md R90, R92). -/
def aluResult (sel : AluSelect) (va vb : Byte) : Except ErrorInfo Nat :=
  match sel with
  | .op .add => .ok (aluAdd va vb)
  | .spare tag => .error { kind := .unsupportedOperation, detail := tag }

/-- `apply(op, a, b)` of 40_alu.md R90: read `x[a]`, read `x[b]`, check the op, write `x[a]`. -/
def aluApply (sel : AluSelect) (a b : Byte) (s : State) : Except ErrorInfo State :=
  match readRegOperand s a with
  | .error e => .error e
  | .ok va =>
    match readRegOperand s b with
    | .error e => .error e
    | .ok vb =>
      match aluResult sel va vb with
      | .error e => .error e
      | .ok r => writeRegOperand s a r

/-- The ADD handler: `apply(ADD, a, b)` (40_alu.md R93; operand order D5, log entry 15). -/
def handleAdd (a b : Byte) (s : State) : HandlerResult :=
  match aluApply (.op .add) a b s with
  | .ok t => .ok (t, none)
  | .error e => .error e

/-- ADD (40_alu.md R93, R94): two operands, sets_pc 0 (30_encoding.md R79). -/
def execAdd (a b : Byte) (s : State) : Host.Outcome State Fault Refusal := finish 2 false s (handleAdd a b s)

end Sys2Proof.Machine
end

