-- ==== Sys2Proof/Machine/Halt.lean ====
section
/-! DEFINITION. HLT (44_hlt.md). -/

namespace Sys2Proof.Machine

/-- The HLT handler: `state <- HALTED` (44_hlt.md R135); the latch is left alone. -/
def handleHlt (s : State) : HandlerResult := .ok (s.withState .halted, none)

/-- HLT (44_hlt.md R135, R136): no operands, sets_pc 0 (30_encoding.md R80); the pc still advances past it. -/
def execHlt (s : State) : Host.Outcome State Fault Refusal := finish 0 false s (handleHlt s)

end Sys2Proof.Machine
end

