-- ==== Sys2Proof/Machine/LoadImmediate.lean ====
section
/-! DEFINITION. LDI (42_ldi.md). -/

namespace Sys2Proof.Machine

/-- The LDI handler: `x[r] <- v` (42_ldi.md R125). -/
def handleLdi (r v : Byte) (s : State) : HandlerResult :=
  match writeRegOperand s r (immOperand v) with
  | .ok t => .ok (t, none)
  | .error e => .error e

/-- LDI (42_ldi.md R125, R126): two operands, sets_pc 0 (30_encoding.md R77). -/
def execLdi (r v : Byte) (s : State) : Host.Outcome State Fault Refusal := finish 2 false s (handleLdi r v s)

end Sys2Proof.Machine
end

