-- ==== Sys2Proof/Machine/Print.lean ====
section
/-! DEFINITION. PRN (43_prn.md). -/

namespace Sys2Proof.Machine

/-- The PRN handler: `Emit(x[r])` (43_prn.md R130). The sink takes every value at once (R132, D17; log entry 16). -/
def handlePrn (r : Byte) (s : State) : HandlerResult :=
  match readRegOperand s r with
  | .ok v => .ok (emit s v, none)
  | .error e => .error e

/-- PRN (43_prn.md R130, R131): one operand, sets_pc 0 (30_encoding.md R78). -/
def execPrn (r : Byte) (s : State) : Host.Outcome State Fault Refusal := finish 1 false s (handlePrn r s)

end Sys2Proof.Machine
end

