-- ==== Sys2Proof/Machine/Fetch.lean ====
section
/-! DEFINITION. The fetch unit: the opcode byte, the operand bytes and dispatch (41_engine.md R101 to R106). -/

namespace Sys2Proof.Machine

/-- `n` bytes from address `a` on, in ascending order; the first read that fails ends it (41_engine.md R104). -/
def readFrom (m : Memory) : Nat → Nat → Except ErrorInfo (List Byte)
  | _, 0 => .ok []
  | a, n + 1 =>
    match memRead m a with
    | .error e => .error e
    | .ok b =>
      match readFrom m (a + 1) n with
      | .error e => .error e
      | .ok bs => .ok (b :: bs)

/-- What fetch, decode and dispatch give the engine. -/
inductive FetchResult where
  /-- A known instruction. -/
  | instr (i : Instr)
  /-- An opcode byte with no entry in the dispatch table; its operand bytes were read (30_encoding.md R82). -/
  | unknown (ir : Byte)
  /-- A fetch or operand fetch past memory. -/
  | failed (e : ErrorInfo)
deriving DecidableEq, Repr

/-- Fetch the opcode byte at `pc`, decode its fields, read its operand bytes, and look it up (41_engine.md R101, R103,
R104, R106): the operands come before dispatch, for every opcode. -/
def fetch (s : State) : FetchResult :=
  match memRead s.mem s.pc with
  | .error e => .failed e
  | .ok ir =>
    match readFrom s.mem (s.pc + 1) (decodeFields ir).operandCount with
    | .error e => .failed e
    | .ok ops =>
      match handlerInstr (dispatch s.params.addOpcode (decodeFields ir).opcode) ops with
      | some i => .instr i
      | none => .unknown ir

end Sys2Proof.Machine
end

