-- ==== Sys2Proof/Machine/Flags.lean ====
section
/-! DEFINITION. The flags. "The hardware has no condition codes, flags register or predicates" (10_state.md R32); the
running flag is the only status flag (R30). -/

namespace Sys2Proof.Machine

/-- The running flag: `running = (state = RUNNING)` (10_state.md R30). No instruction reads it; the loop tests it
(41_engine.md R112). -/
def State.running (s : State) : Bool := s.state == .running

end Sys2Proof.Machine
end

