-- ==== Sys2Proof/Machine/HostPort.lean ====
section
/-! DEFINITION. What the host can do to the machine between steps (70_reset_and_hazards.md R173): reset, load, the
entry of `run()`, and the snapshot; and what a turn of `run()` answers on a HALTED machine. A request outside its
accepted states has no move: `none` (log entry 22). -/

namespace Sys2Proof.Machine

/-- `reset()` (70_reset_and_hazards.md R165, R166, R169; D14, log entry 11): accepted in IDLE and HALTED; every field
returns to its construction value, memory included. -/
def State.hostReset (s : State) : Option State :=
  match s.state with
  | .idle => some (State.resetWith s.params)
  | .halted => some (State.resetWith s.params)
  | .running => none

/-- What the host gets back from `load` (70_reset_and_hazards.md R173). -/
inductive LoadReply where
  | ok
  | error (e : ErrorInfo)
deriving DecidableEq, Repr

/-- `MemWrite(i, 1, b[i])` in ascending order from address `a` (20_memory.md R50); the first write that fails ends
the load, and the cells before it stay written (log entry 10). -/
def loadFrom : Memory → Nat → List Nat → Memory × LoadReply
  | m, _, [] => (m, .ok)
  | m, a, v :: vs =>
    match memWrite m a v with
    | .error e => (m, .error e)
    | .ok m' => loadFrom m' (a + 1) vs

/-- `load(bytes)` (20_memory.md R50 to R52; D13, log entry 10): accepted only in IDLE; the length is checked first and
nothing is written when it exceeds memory, the error then naming the first address outside memory; only memory
changes. -/
def State.hostLoad (image : List Nat) (s : State) : Option (State × LoadReply) :=
  match s.state with
  | .idle =>
    if 256 < image.length then some (s, .error { kind := .outOfBounds, detail := 256 })
    else some (s.withMem (loadFrom s.mem 0 image).1, (loadFrom s.mem 0 image).2)
  | .running => none
  | .halted => none

/-- `run()` entry on an IDLE machine: `state <- RUNNING`, nothing else (41_engine.md R115, 70_reset_and_hazards.md
R175). -/
def runEntry (s : State) : State := s.withState .running

/-- A turn of `run()` on a HALTED machine (log entry 7): it changes nothing (70_reset_and_hazards.md R175), and a fatal
error propagates to the caller as a fault outcome (60_exceptions.md R145). -/
def haltedTurn (s : State) : Host.Outcome State Fault Refusal :=
  match s.fault with
  | none => .next s
  | some r => if r.fatal then .fault (.aborted r) else .next s

/-- What `snapshot()` returns (70_reset_and_hazards.md R178): no state, fault, out or transient decode. -/
structure Snapshot where
  pc : Nat
  memoryWindow : List Host.Cell
  registers : Vector Byte 8
deriving DecidableEq, Repr

/-- The cells of a window, in ascending order, as far as they lie in memory. -/
def windowCells (m : Memory) (w : Window) : List Host.Cell :=
  ((List.range w.count).map (w.first + ·)).filterMap fun a => if a < 256 then some (a, m.read a) else none

/-- `snapshot()` (70_reset_and_hazards.md R178): an observation, not a transition; accepted in any state. -/
def State.snapshot (s : State) : Snapshot where
  pc := s.pc
  memoryWindow := windowCells s.mem s.params.snapshotWindow
  registers := s.x

end Sys2Proof.Machine
end

