-- ==== Sys2Proof/Machine/Step.lean ====
section
/-! DEFINITION. The step: one turn of the host's `run()`. -/

namespace Sys2Proof.Machine

/-- `step()` of 41_engine.md R113, enabled when `state = RUNNING`: fetch, decode, operand fetch, dispatch, handler, pc
advance; an error anywhere is taken on the state the step began with. -/
def engineStep (s : State) : Host.Outcome State Fault Refusal :=
  match fetch s with
  | .failed e => .next (abort e s)
  | .unknown ir => .next (haltUnrecognized ir s)
  | .instr i => exec i s

/-- One turn of `run()` (log entries 6 and 7): in IDLE it enters RUNNING (70_reset_and_hazards.md R175), in RUNNING the
engine runs one instruction (41_engine.md R100), in HALTED nothing changes and a fatal error is the fault outcome. -/
def step (s : State) : Host.Outcome State Fault Refusal :=
  match s.state with
  | .idle => .next (runEntry s)
  | .running => engineStep s
  | .halted => haltedTurn s

/-- Bytes written from address `a` on. -/
def Memory.writeAll (m : Memory) (a : Nat) : List Byte → Memory
  | [] => m
  | b :: bs => Memory.writeAll (m.write a b) (a + 1) bs

/-- Where a four-byte word is placed so that the next step fetches it: at the pc, or at 0 (the pc moved there) when
four bytes do not fit below address 256 (log entry 19). -/
def fetchWordAddress (s : State) : Nat := if s.pc + 4 ≤ 256 then s.pc else 0

/-- `s` with a table word stored where the next step fetches its instruction, and the engine RUNNING: it stands for
the host's `load` and the entry of `run()` (log entry 6). -/
def State.withFetchWord (s : State) (nbits w : Nat) : State :=
  ((s.withMem (Memory.writeAll s.mem (fetchWordAddress s) (tableBytes nbits w))).withPc
    (fetchWordAddress s)).withState .running

end Sys2Proof.Machine
end

