-- ==== Sys2Proof/Machine/Run.lean ====
section
/-! DEFINITION. The whole `run()` of the host and its result (70_reset_and_hazards.md R175, R176, R180). -/

namespace Sys2Proof.Machine

/-- "Repeat while state is RUNNING" (41_engine.md R112), for at most `fuel` steps. -/
def runLoop : Nat → State → State
  | 0, s => s
  | fuel + 1, s =>
    if s.running then
      match engineStep s with
      | .next t => runLoop fuel t
      | .fault _ => s
      | .refused _ => s
    else s

/-- What `run()` hands the host: the final `state` and `fault` (70_reset_and_hazards.md R176). -/
structure RunResult where
  state : EngineState
  fault : Option FaultRecord
deriving DecidableEq, Repr

/-- The most steps a run can take (41_engine.md R118; log entry 18). -/
def maxRunSteps : Nat := 129

/-- `run()` (70_reset_and_hazards.md R175, R176): in IDLE the engine is started and steps until HALTED; in HALTED
nothing changes and the same result is returned; in RUNNING it cannot be issued. -/
def State.hostRun (s : State) : Option (State × RunResult) :=
  match s.state with
  | .idle =>
    let t := runLoop maxRunSteps (runEntry s)
    some (t, { state := t.state, fault := t.fault })
  | .halted => some (s, { state := s.state, fault := s.fault })
  | .running => none

end Sys2Proof.Machine
end

