-- ==== Sys2Proof/Safety.lean ====
section
/-! DEFINITION. The terms claims use: the state invariants of 10_state.md R40, how a run ends (70_reset_and_hazards.md
R180), and the bytes the next step can decode. -/

namespace Sys2Proof.Machine

/-- A record of the latch as 60_exceptions.md R140 makes it: the code and the class belong to the kind. -/
def FaultRecord.consistent (r : FaultRecord) : Prop := r.code = r.kind.code ∧ r.fatal = r.kind.fatal

/-- The invariants of 10_state.md R40, with the canonical form of memory and the consistency of the latch
(60_exceptions.md R140). That cells and registers are in 0..255 is their type. -/
structure State.Inv (s : State) : Prop where
  pcLe : s.pc ≤ 256
  memWf : s.mem.wf
  idleClean : s.state = .idle → s.fault = none ∧ s.out = []
  faultHalted : s.fault ≠ none → s.state = .halted
  latchConsistent : ∀ r, s.fault = some r → r.consistent

/-- "The observation of a run is `(state, fault, pc, x, M, out)` at its end" (70_reset_and_hazards.md R180). -/
structure Observation where
  state : EngineState
  fault : Option FaultRecord
  pc : Nat
  x : Vector Byte 8
  mem : Memory
  out : List Byte
deriving DecidableEq, Repr

/-- What a run that ended in `s` is observed by (70_reset_and_hazards.md R180). -/
def State.observation (s : State) : Observation where
  state := s.state
  fault := s.fault
  pc := s.pc
  x := s.x
  mem := s.mem
  out := s.out

/-- A normal end of a run (70_reset_and_hazards.md R180). -/
def State.normalEnd (s : State) : Prop := s.state = .halted ∧ s.fault = none

/-- The engine halted cleanly on an unknown opcode (60_exceptions.md R146). -/
def State.handledEnd (s : State) : Prop := s.state = .halted ∧ ∃ r, s.fault = some r ∧ r.fatal = false

/-- The run was aborted by a fatal error (60_exceptions.md R145): a fault outcome, "never [...] a normal end of the
run". -/
def State.aborted (s : State) : Prop := s.state = .halted ∧ ∃ r, s.fault = some r ∧ r.fatal = true

/-- `s` with the latch written for the instruction at its pc and the engine HALTED, every other field as it was: what
60_exceptions.md R145 and R146 say an error leaves, written out field by field. -/
def State.haltedWith (s : State) (kind : FaultKind) (code : Nat) (ir : Option Byte) (detail : Nat) (fatal : Bool) :
    State :=
  { s with
    state := .halted
    fault := some { kind := kind, code := some code, pc := s.pc, ir := ir, detail := detail, fatal := fatal } }

/-- The bytes of memory from the pc to the top: what the next step can fetch from. -/
def bytesAtPc (s : State) : List Byte := (List.range (256 - s.pc)).map fun k => s.mem.read (s.pc + k)

/-- The opcode byte at the pc. -/
def opcodeAtPc (s : State) : Byte := s.mem.read s.pc

end Sys2Proof.Machine
end

