-- ==== Sys2Proof/Certificates/Slice0/Obligations.lean ====
section
/-! DEFINITION. The statements for the provers. "The model's choice" in a docstring names the log entry (or the spec's
decision) that a clause rests on. -/

open Sys2Proof Sys2Proof.Machine

/-! ### The decoder and the encoder -/

/-- 30_encoding.md R67, R68, R70: the three outputs of the decoder, for every byte. -/
def Obligations.DecoderFieldsAreTheBitLayout : Prop :=
  ∀ ir : Byte,
    (decodeFields ir).opcode = ir ∧ (decodeFields ir).operandCount = ir.toNat / 64 ∧
    ((decodeFields ir).setsPc = true ↔ ir.toNat / 16 % 2 = 1)

/-- 30_encoding.md R72: the length is 1 to 4 bytes, told from the opcode byte alone, for known and unknown opcodes
alike, and decoding takes exactly that many bytes. -/
def Obligations.LengthComesFromTheOpcodeByteAlone : Prop :=
  ∀ (addOp : Option AddOpcode) (ir : Byte) (rest : List Byte),
    instrLength ir = 1 + ir.toNat / 64 ∧ 1 ≤ instrLength ir ∧ instrLength ir ≤ 4 ∧
    (∀ i tail, decode addOp (ir :: rest) = .instr i tail →
      instrLength ir ≤ (ir :: rest).length ∧ tail = (ir :: rest).drop (instrLength ir)) ∧
    (∀ b ops tail, decode addOp (ir :: rest) = .unknown b ops tail →
      b = ir ∧ 1 + ops.length = instrLength ir ∧ (ir :: rest) = (ir :: ops) ++ tail) ∧
    (∀ b, decode addOp (ir :: rest) = .truncated b ↔ b = ir ∧ (ir :: rest).length < instrLength ir)

/-- 30_encoding.md R77, R78, R80: the words of LDI, PRN and HLT, whatever `P_ADD_OPCODE` is. -/
def Obligations.TableWordsDecode : Prop :=
  ∀ (addOp : Option AddOpcode) (r v : Byte) (rest : List Byte),
    decode addOp (0b10000010#8 :: r :: v :: rest) = .instr (.ldi r v) rest ∧
    decode addOp (0b01000111#8 :: r :: rest) = .instr (.prn r) rest ∧
    decode addOp (0b00000001#8 :: rest) = .instr .hlt rest ∧
    (instrLength 0b10000010#8, instrLength 0b01000111#8, instrLength 0b00000001#8) = (3, 2, 1) ∧
    (setsPc 0b10000010#8, setsPc 0b01000111#8, setsPc 0b00000001#8) = (false, false, false)

/-- 30_encoding.md R79 (`P_ADD_OPCODE` is the spec's decision D4, the operand order D5): with `some c` the byte `c`
selects ADD, and with `none` no bytes decode to ADD. -/
def Obligations.AddWordDecodesOnlyUnderItsParameter : Prop :=
  (∀ (c : AddOpcode) (a b : Byte) (rest : List Byte),
    decode (some c) (c.byte :: a :: b :: rest) = .instr (.add a b) rest ∧ instrLength c.byte = 3 ∧
    setsPc c.byte = false) ∧
  ∀ (bs rest : List Byte) (a b : Byte), decode none bs ≠ .instr (.add a b) rest

/-- 41_engine.md R106, 30_encoding.md R74 (the whole byte is the spec's decision D3): which byte selects which
handler. -/
def Obligations.DispatchIsKeyedByTheWholeByte : Prop :=
  ∀ (addOp : Option AddOpcode) (ir : Byte),
    (dispatch addOp ir = .ldi ↔ ir = 0x82#8) ∧ (dispatch addOp ir = .prn ↔ ir = 0x47#8) ∧
    (dispatch addOp ir = .hlt ↔ ir = 0x01#8) ∧ (dispatch addOp ir = .add ↔ ∃ c, addOp = some c ∧ ir = c.byte)

/-- 30_encoding.md R82 to R85 (R83 and R85 are the spec's inferences): every other byte is unknown, with its operand
bytes taken all the same, and so is every byte with sets_pc 1 or operand count 3. -/
def Obligations.EveryOtherByteIsUnknown : Prop :=
  ∀ (addOp : Option AddOpcode) (ir : Byte),
    (dispatch addOp ir = .unknown ↔
      ir ≠ 0x82#8 ∧ ir ≠ 0x47#8 ∧ ir ≠ 0x01#8 ∧ ∀ c, addOp = some c → ir ≠ c.byte) ∧
    (setsPc ir = true → dispatch addOp ir = .unknown) ∧
    (operandCount ir = 3 → dispatch addOp ir = .unknown) ∧
    ∀ ops rest : List Byte, dispatch addOp ir = .unknown → ops.length = operandCount ir →
      decode addOp (ir :: ops ++ rest) = .unknown ir ops rest

/-- Decoding the encoding of a well-formed instruction gives it back, for every operand byte and every value of
`P_ADD_OPCODE` (30_encoding.md R65, R76 to R80). -/
def Obligations.EncodeThenDecodeReturnsTheInstruction : Prop :=
  ∀ (addOp : Option AddOpcode) (i : Instr) (rest : List Byte), i.wellFormed addOp = true →
    ∃ w, encode addOp i = some w ∧ decode addOp (w ++ rest) = .instr i rest

/-- Bytes that decode to an instruction are its encoding, and the instruction is well-formed: no two byte strings mean
the same instruction (30_encoding.md R74, R83). -/
def Obligations.DecodeThenEncodeReturnsTheBytes : Prop :=
  ∀ (addOp : Option AddOpcode) (bs : List Byte) (i : Instr) (rest : List Byte), decode addOp bs = .instr i rest →
    i.wellFormed addOp = true ∧ ∃ w, encode addOp i = some w ∧ bs = w ++ rest

/-! ### Reset and the invariant -/

/-- 10_state.md R38, 70_reset_and_hazards.md R165: the reset values. The registers are what `P_REG_RESET` gives (D6);
IDLE, the empty latch and the empty output list are the spec's decisions D7, D11, D17. `State.reset` is this state for
the model's default parameters (log entries 1 to 5). -/
def Obligations.ResetValues : Prop :=
  (∀ p : Params,
    (∀ a, (State.resetWith p).mem.read a = 0#8) ∧ (State.resetWith p).x = p.regReset ∧
    (State.resetWith p).pc = 0 ∧ (State.resetWith p).state = .idle ∧ (State.resetWith p).fault = none ∧
    (State.resetWith p).out = [] ∧ (State.resetWith p).params = p) ∧
  State.reset = State.resetWith defaultParams

/-- The invariants of 10_state.md R40 hold after reset. -/
def Obligations.ResetMeetsTheInvariant : Prop :=
  State.reset.Inv ∧ ∀ p : Params, (State.resetWith p).Inv

/-- 10_state.md R40 (the spec's inference): every step keeps the invariants, from every state that meets them: the pc
stays in 0..256, memory keeps its canonical form, IDLE is clean, a latched fault means HALTED, and the latch is
consistent. -/
def Obligations.StepKeepsTheInvariant : Prop :=
  ∀ s t : State, s.Inv → step s = .next t → t.Inv

/-- 10_state.md R40: the host's requests keep the invariants too (their acceptance is the spec's decision D13, D14,
D7). -/
def Obligations.HostRequestsKeepTheInvariant : Prop :=
  ∀ s : State, s.Inv →
    (∀ t, s.hostReset = some t → t.Inv) ∧ (∀ image t reply, s.hostLoad image = some (t, reply) → t.Inv) ∧
    (∀ t result, s.hostRun = some (t, result) → t.Inv)

/-! ### The memory and register ports -/

/-- 20_memory.md R45 to R48: the memory port. Both accesses fail outside [0, 256), a write fails on a value above 255,
and a write changes exactly one cell. The canonical form that a write keeps is the model's representation of memory (log
entry 21). -/
def Obligations.MemoryPortContract : Prop :=
  ∀ (m : Memory) (a v : Nat), m.wf →
    (a < 256 → memRead m a = .ok (m.read a)) ∧
    (256 ≤ a → memRead m a = .error { kind := .outOfBounds, detail := a }) ∧
    (256 ≤ a → v ≤ 255 → memWrite m a v = .error { kind := .outOfBounds, detail := a }) ∧
    (a < 256 → 255 < v → memWrite m a v = .error { kind := .invalidValue, detail := v }) ∧
    (a < 256 → v ≤ 255 → ∃ m', memWrite m a v = .ok m' ∧ m'.wf ∧
      ∀ a', m'.read a' = if a' = a then BitVec.ofNat 8 v else m.read a')

/-- The order of two failing checks in one write, which is the spec's decision D12 (log entry 9): the address before
the value (20_memory.md R47), the register index before the value (10_state.md R24). -/
def Obligations.WritePortsCheckTheAddressFirst : Prop :=
  (∀ (m : Memory) (a v : Nat), 256 ≤ a → 255 < v → memWrite m a v = .error { kind := .outOfBounds, detail := a }) ∧
  (∀ (x : Vector Byte 8) (i : Byte) (v : Nat), 8 ≤ i.toNat → 255 < v →
    regSet x i v = .error { kind := .invalidRegister, detail := i.toNat })

/-- The model's representation of the 256 cells of 10_state.md R21: memories in canonical form that hold the same
bytes are equal. -/
def Obligations.CanonicalMemoriesWithEqualBytesAreEqual : Prop :=
  ∀ m m' : Memory, m.wf → m'.wf → (∀ a, a < 256 → m.read a = m'.read a) → m = m'

/-- 10_state.md R23, R24 with every register holding a value (log entries 1 and 12): the register ports. -/
def Obligations.RegisterPortContract : Prop :=
  ∀ (x : Vector Byte 8) (i : Byte) (v : Nat),
    (∀ h : i.toNat < 8, regGet x i = .ok x[i.toNat]) ∧
    (8 ≤ i.toNat → regGet x i = .error { kind := .invalidRegister, detail := i.toNat }) ∧
    (8 ≤ i.toNat → v ≤ 255 → regSet x i v = .error { kind := .invalidRegister, detail := i.toNat }) ∧
    (i.toNat < 8 → 255 < v → regSet x i v = .error { kind := .invalidValue, detail := v }) ∧
    (i.toNat < 8 → v ≤ 255 → ∃ x', regSet x i v = .ok x' ∧
      ∀ j : Fin 8, x'[j] = if j.val = i.toNat then BitVec.ofNat 8 v else x[j])

/-! ### The ALU -/

/-- 40_alu.md R91: the sum of two bytes, exact below 256 and less 256 from there on. -/
def Obligations.AluAdditionWraps : Prop :=
  ∀ va vb : Byte,
    aluResult (.op .add) va vb = .ok (aluAdd va vb) ∧ aluAdd va vb = (va.toNat + vb.toNat) % 256 ∧
    (va.toNat + vb.toNat ≤ 255 → aluAdd va vb = va.toNat + vb.toNat) ∧
    (256 ≤ va.toNat + vb.toNat → aluAdd va vb = va.toNat + vb.toNat - 256)

/-- 40_alu.md R90: `apply(op, a, b)`. Register `a` is read first, then register `b`, then the op is checked, and only
`x[a]` is written, with both values read before the write. The spare select code is the model's form of "any other op
tag" (R92; log entry 13); the order of the checks is the spec's decision D12 (log entry 9, R147); and that no register is
unwritten is the model's choice (log entries 1 and 12). -/
def Obligations.AluApplyContract : Prop :=
  ∀ (sel : AluSelect) (a b : Byte) (s : State),
    (8 ≤ a.toNat → aluApply sel a b s = .error { kind := .invalidRegister, detail := a.toNat }) ∧
    (a.toNat < 8 → 8 ≤ b.toNat → aluApply sel a b s = .error { kind := .invalidRegister, detail := b.toNat }) ∧
    (∀ tag, a.toNat < 8 → b.toNat < 8 → sel = .spare tag →
      aluApply sel a b s = .error { kind := .unsupportedOperation, detail := tag }) ∧
    (∀ (ha : a.toNat < 8) (hb : b.toNat < 8), sel = .op .add →
      aluApply sel a b s = .ok { s with
        x := s.x.set a.toNat (BitVec.ofNat 8 ((s.x[a.toNat].toNat + s.x[b.toNat].toNat) % 256)) })

/-! ### What each instruction does -/

/-- LDI completes for every register 0..7 and every immediate, in every state (42_ldi.md R125, R126). -/
def Obligations.LdiCompletes : Prop :=
  ∀ (r v : Byte) (s : State) (h : r.toNat < 8),
    exec (.ldi r v) s = .next { s with x := s.x.set r.toNat v, pc := s.pc + 3 }

/-- PRN completes for every register 0..7, in every state (43_prn.md R130, R131), since no register is
ever unwritten in this model (log entries 1 and 12). -/
def Obligations.PrnCompletes : Prop :=
  ∀ (r : Byte) (s : State) (h : r.toNat < 8),
    exec (.prn r) s = .next { s with out := s.out ++ [s.x[r.toNat]], pc := s.pc + 2 }

/-- HLT completes in every state (44_hlt.md R135, R136). -/
def Obligations.HltCompletes : Prop :=
  ∀ s : State, exec .hlt s = .next { s with state := .halted, pc := s.pc + 1 }

/-- ADD completes for all registers 0..7, in every state, with `a` the destination (40_alu.md R93, R94; the operand
order is the spec's decision D5). With `a = b` it doubles. No register is ever unwritten in this
model (log entries 1 and 12). -/
def Obligations.AddCompletes : Prop :=
  ∀ (a b : Byte) (s : State) (ha : a.toNat < 8) (hb : b.toNat < 8),
    ∃ t, exec (.add a b) s = .next t ∧ t.pc = s.pc + 3 ∧
      (t.x[a.toNat]).toNat = ((s.x[a.toNat]).toNat + (s.x[b.toNat]).toNat) % 256 ∧
      (∀ j : Fin 8, j.val ≠ a.toNat → t.x[j] = s.x[j]) ∧
      t = { s with x := t.x, pc := t.pc }

/-- A register operand 8..255 aborts LDI, PRN and ADD, writing the latch and HALTED and nothing else: no register, no
output, no memory, no pc (60_exceptions.md R142, R145, R147; the order `a` then `b` is the spec's decision D12, log
entry 9; the latch is D8, D10 and D11, log entry 8). That ADD comes to the check of `b` whenever `a` is in 0..7 rests on
the model's choice that no register is unwritten (log entries 1 and 12). -/
def Obligations.RegisterOperandPast7Aborts : Prop :=
  ∀ (r v : Byte) (s : State), s.pc < 256 →
    (8 ≤ r.toNat →
      exec (.ldi r v) s = .next (s.haltedWith .invalidRegister 2 (some (opcodeAtPc s)) r.toNat true) ∧
      exec (.prn r) s = .next (s.haltedWith .invalidRegister 2 (some (opcodeAtPc s)) r.toNat true) ∧
      exec (.add r v) s = .next (s.haltedWith .invalidRegister 2 (some (opcodeAtPc s)) r.toNat true)) ∧
    (r.toNat < 8 → 8 ≤ v.toNat →
      exec (.add r v) s = .next (s.haltedWith .invalidRegister 2 (some (opcodeAtPc s)) v.toNat true))

/-- The frame of the instructions that write a register, LDI and ADD: every register but the destination is unchanged
(every register, where a register operand is past 7), and so are the output channel, the parameters and every byte of
memory; the state and the latch are unchanged where every register operand is in 0..7 (10_state.md R25, 41_engine.md
R114), for ADD because no register is ever unwritten in this model (log entries 1 and 12). -/
def Obligations.RegisterWritersFrame : Prop :=
  ∀ (a b : Byte) (s t : State),
    (exec (.ldi a b) s = .next t →
      (∀ j : Fin 8, j.val ≠ a.toNat → t.x[j] = s.x[j]) ∧ t.out = s.out ∧ t.params = s.params ∧
      (∀ k, t.mem.read k = s.mem.read k) ∧ (a.toNat < 8 → t.state = s.state ∧ t.fault = s.fault) ∧
      (8 ≤ a.toNat → t.x = s.x ∧ t.pc = s.pc)) ∧
    (exec (.add a b) s = .next t →
      (∀ j : Fin 8, j.val ≠ a.toNat → t.x[j] = s.x[j]) ∧ t.out = s.out ∧ t.params = s.params ∧
      (∀ k, t.mem.read k = s.mem.read k) ∧ (a.toNat < 8 → b.toNat < 8 → t.state = s.state ∧ t.fault = s.fault) ∧
      (8 ≤ a.toNat ∨ 8 ≤ b.toNat → t.x = s.x ∧ t.pc = s.pc))

/-- The frame of PRN and HLT: every register, every byte of memory and the parameters are unchanged; PRN leaves the
state and the latch for a register 0..7 and the output channel otherwise; HLT leaves the output channel and the latch
(43_prn.md R130, R131, 44_hlt.md R136). That PRN of a register 0..7 leaves the state and the latch rests on the model's
choice that no register is unwritten (log entries 1 and 12). -/
def Obligations.PrnAndHltFrame : Prop :=
  ∀ (r : Byte) (s t : State),
    (exec (.prn r) s = .next t ∨ exec .hlt s = .next t →
      t.x = s.x ∧ t.params = s.params ∧ ∀ k, t.mem.read k = s.mem.read k) ∧
    (exec (.prn r) s = .next t → r.toNat < 8 → t.state = s.state ∧ t.fault = s.fault) ∧
    (exec (.prn r) s = .next t → 8 ≤ r.toNat → t.out = s.out ∧ t.pc = s.pc) ∧
    (exec .hlt s = .next t → t.out = s.out ∧ t.fault = s.fault)

/-! ### The step of a RUNNING engine -/

/-- When the bytes from the pc on decode to an instruction (which is then well-formed), a step of the RUNNING engine is
`exec` of it at that state: nothing is added around it, and `exec` itself moves the pc past the instruction
(41_engine.md R113). -/
def Obligations.StepRunsTheDecodedInstruction : Prop :=
  ∀ (s : State) (i : Instr) (rest : List Byte), s.state = .running →
    decode s.params.addOpcode (bytesAtPc s) = .instr i rest → step s = exec i s

/-- When the bytes from the pc on decode to no instruction, the step halts the engine and says why: no opcode byte,
operand bytes past memory, an unknown opcode (41_engine.md R102, R105, R110, which rest on the spec's inference; the
latch is D8, D10 and D11, log entry 8). -/
def Obligations.StepOnBytesThatDoNotDecode : Prop :=
  ∀ s : State, s.state = .running → s.pc ≤ 256 →
    (decode s.params.addOpcode (bytesAtPc s) = .empty →
      step s = .next (s.haltedWith .outOfBounds 1 none 256 true)) ∧
    (∀ ir, decode s.params.addOpcode (bytesAtPc s) = .truncated ir →
      step s = .next (s.haltedWith .outOfBounds 1 (some ir) 256 true)) ∧
    (∀ ir ops rest, decode s.params.addOpcode (bytesAtPc s) = .unknown ir ops rest →
      ∃ p, step s =
        .next { s.haltedWith .unrecognizedInstruction 5 (some ir) ir.toNat false with pc := p })

/-- 42_ldi.md R125: the step of `0x82, r, v`. With r in 0..7 the register is written and the pc advances by 3; with r
past 7 it is InvalidRegister(r); at pc 254 or 255 it is OutOfBounds(256) from the operand fetch; and a read of the
register afterwards yields exactly v (R126). HALTED and the record (code, opcode byte, pc, detail) are those of
60_exceptions.md R145, the spec's decisions D8, D10 and D11 (log entry 8). -/
def Obligations.LdiStep : Prop :=
  ∀ s : State, s.state = .running → s.mem.read s.pc = 0x82#8 →
    (∀ r v : Byte, s.pc ≤ 253 → s.mem.read (s.pc + 1) = r → s.mem.read (s.pc + 2) = v →
      (∀ h : r.toNat < 8, ∃ t, step s = .next t ∧ t = { s with x := s.x.set r.toNat v, pc := s.pc + 3 } ∧
        regGet t.x r = .ok v) ∧
      (8 ≤ r.toNat → step s = .next (s.haltedWith .invalidRegister 2 (some 0x82#8) r.toNat true))) ∧
    (254 ≤ s.pc → s.pc ≤ 255 → step s = .next (s.haltedWith .outOfBounds 1 (some 0x82#8) 256 true))

/-- 43_prn.md R130: the step of `0x47, r`. With r in 0..7 the register's value is appended to the output channel and
the pc advances by 2; with r past 7 it is InvalidRegister(r) with nothing emitted; at pc 255 it is OutOfBounds(256).
No register is ever unwritten in this model (log entries 1 and 12); the record is that of R145 (D8, D10, D11; log entry
8). -/
def Obligations.PrnStep : Prop :=
  ∀ s : State, s.state = .running → s.mem.read s.pc = 0x47#8 →
    (∀ r : Byte, s.pc ≤ 254 → s.mem.read (s.pc + 1) = r →
      (∀ h : r.toNat < 8, step s = .next { s with out := s.out ++ [s.x[r.toNat]], pc := s.pc + 2 }) ∧
      (8 ≤ r.toNat → step s = .next (s.haltedWith .invalidRegister 2 (some 0x47#8) r.toNat true))) ∧
    (s.pc = 255 → step s = .next (s.haltedWith .outOfBounds 1 (some 0x47#8) 256 true))

/-- 44_hlt.md R135: the step of `0x01`, at every pc 0..255: the engine is HALTED, the pc is advanced past HLT, the
latch stays as it was, and the running flag becomes false. -/
def Obligations.HltStep : Prop :=
  ∀ s : State, s.state = .running → s.pc ≤ 255 → s.mem.read s.pc = 0x01#8 →
    ∃ t, step s = .next t ∧ t = { s with state := .halted, pc := s.pc + 1 } ∧ t.running = false

/-- 40_alu.md R93, R94 (byte and operand order are the spec's decisions D4, D5): the step of `P_ADD_OPCODE, a, b`. The
order of the register checks is D12 (log entry 9), the record that of R145 (D8, D10, D11; log entry 8), and no register
is ever unwritten in this model (log entries 1 and 12). -/
def Obligations.AddStep : Prop :=
  ∀ (s : State) (c : AddOpcode), s.state = .running → s.params.addOpcode = some c → s.mem.read s.pc = c.byte →
    (∀ a b : Byte, s.pc ≤ 253 → s.mem.read (s.pc + 1) = a → s.mem.read (s.pc + 2) = b →
      (∀ (ha : a.toNat < 8) (hb : b.toNat < 8),
        step s = .next { s with
          x := s.x.set a.toNat (BitVec.ofNat 8 ((s.x[a.toNat].toNat + s.x[b.toNat].toNat) % 256))
          pc := s.pc + 3 }) ∧
      (8 ≤ a.toNat → step s = .next (s.haltedWith .invalidRegister 2 (some c.byte) a.toNat true)) ∧
      (a.toNat < 8 → 8 ≤ b.toNat →
        step s = .next (s.haltedWith .invalidRegister 2 (some c.byte) b.toNat true))) ∧
    (254 ≤ s.pc → s.pc ≤ 255 → step s = .next (s.haltedWith .outOfBounds 1 (some c.byte) 256 true))

/-- 41_engine.md R102, R105 (the spec's inferences from R46): a fetch at 256, and an operand fetch past 255 for every
opcode byte whatever, known or unknown, abort with OutOfBounds(256), before dispatch and before any register check
(60_exceptions.md R147). The record is that of R145 (D8, D10, D11; log entry 8). -/
def Obligations.FetchPastMemoryAborts : Prop :=
  ∀ s : State, s.state = .running →
    (s.pc = 256 → step s = .next (s.haltedWith .outOfBounds 1 none 256 true)) ∧
    (s.pc ≤ 255 → 255 < s.pc + (opcodeAtPc s).toNat / 64 →
      step s = .next (s.haltedWith .outOfBounds 1 (some (opcodeAtPc s)) 256 true))

/-- 41_engine.md R110: an unknown opcode whose operand bytes lie in memory halts the engine with the handled fault
UnrecognizedInstruction, code 5, at the address of the offending byte, and writes no register, memory or output. The
pc afterwards is a parameter and is stated apart (`PcAfterUnknownOpcode`). -/
def Obligations.UnknownOpcodeHalts : Prop :=
  ∀ s : State, s.state = .running → s.pc + (opcodeAtPc s).toNat / 64 ≤ 255 →
    dispatch s.params.addOpcode (opcodeAtPc s) = .unknown →
    ∃ p, step s = .next
      { s.haltedWith .unrecognizedInstruction 5 (some (opcodeAtPc s)) (opcodeAtPc s).toNat false with pc := p }

/-- 41_engine.md R111, R108 (`P_PC_AFTER_UNRECOGNIZED` is the spec's decision D9, log entry 4): the pc after an unknown
opcode, for each value of the parameter. -/
def Obligations.PcAfterUnknownOpcode : Prop :=
  ∀ s t : State, s.state = .running → s.pc + (opcodeAtPc s).toNat / 64 ≤ 255 →
    dispatch s.params.addOpcode (opcodeAtPc s) = .unknown → step s = .next t →
    (s.params.pcAfterUnrecognized = .advance → setsPc (opcodeAtPc s) = false →
      t.pc = s.pc + 1 + (opcodeAtPc s).toNat / 64) ∧
    (s.params.pcAfterUnrecognized = .advance → setsPc (opcodeAtPc s) = true → t.pc = s.pc) ∧
    (s.params.pcAfterUnrecognized = .hold → t.pc = s.pc)

/-- 41_engine.md R107: a step that completes with no error moves the pc by 1 + operand_count, HLT's too, with no
reduction modulo 256: the largest value is 256. -/
def Obligations.PcAdvancesByTheInstructionLength : Prop :=
  ∀ s t : State, s.state = .running → step s = .next t → t.fault = none →
    t.pc = s.pc + 1 + operandCount (opcodeAtPc s) ∧ t.pc ≤ 256 ∧ setsPc (opcodeAtPc s) = false

/-! ### Errors -/

/-- 41_engine.md R114, R109, 60_exceptions.md R145, R148 (the spec's inferences; the latch is D8, D10 and D11, log entry
8): a step that latches a fatal error writes the latch and HALTED and nothing else; the record names the failing instruction's address
and its opcode byte if one was fetched; and only two kinds come from the core, OutOfBounds of address 256 and
InvalidRegister of 8..255 (R140, R143, R144). That UnwrittenRegister, which R140, R145 and R147 let PRN and ADD raise, is
no third kind is the model's choice: every register holds a value (log entries 1 and 12). -/
def Obligations.FatalErrorsArePrecise : Prop :=
  ∀ (s t : State) (f : FaultRecord), s.state = .running → s.fault = none → s.pc ≤ 256 → step s = .next t →
    t.fault = some f → f.fatal = true →
    t = { s with state := .halted, fault := some f } ∧ f.pc = s.pc ∧
    f.ir = (if s.pc < 256 then some (opcodeAtPc s) else none) ∧
    ((f.kind = .outOfBounds ∧ f.code = some 1 ∧ f.detail = 256) ∨
     (f.kind = .invalidRegister ∧ f.code = some 2 ∧ 8 ≤ f.detail ∧ f.detail ≤ 255))

/-- 41_engine.md R100, R114 (the latter the spec's inference): everything a step of the RUNNING engine can do. It
writes at most one register, or one output value, or the state and the latch; and the pc. -/
def Obligations.StepWritesAtMostOneThing : Prop :=
  ∀ s t : State, s.state = .running → step s = .next t →
    (∃ (i : Fin 8) (v : Byte), t = { s with x := s.x.set i v, pc := t.pc }) ∨
    (∃ v : Byte, t = { s with out := s.out ++ [v], pc := t.pc }) ∨
    t = { s with state := .halted, fault := t.fault, pc := t.pc }

/-- 10_state.md R31, 60_exceptions.md R145, R146 (the latch is the spec's decision D11): once written it is never written again, and a
write of it halts the engine. -/
def Obligations.LatchIsWrittenOnceAndHalts : Prop :=
  ∀ s t : State, s.Inv → step s = .next t →
    (s.fault ≠ none → t.fault = s.fault) ∧ (t.fault ≠ s.fault → s.state = .running ∧ t.state = .halted)

/-! ### The engine's state machine -/

/-- 41_engine.md R115 (the transitions are the spec's decision D7; a turn of `run()` on an engine that is not RUNNING is
the model's choice, log entries 6 and 7): the edges a step can take, and what changes along them. -/
def Obligations.StepFollowsTheTransitionTable : Prop :=
  ∀ s t : State, step s = .next t →
    (s.state = .idle → t = { s with state := .running }) ∧
    (s.state = .running → (t.state = .running ∧ t.fault = s.fault) ∨ t.state = .halted) ∧
    (s.state = .halted → t = s)

/-- 70_reset_and_hazards.md R167, R175, 41_engine.md R115 (D7, D13, D14): on a HALTED engine `run()` changes nothing and
gives the same result, `load` has no move, and only reset leaves HALTED. -/
def Obligations.HaltedStaysUntilReset : Prop :=
  ∀ (s : State) (image : List Nat), s.state = .halted →
    (∀ t, step s = .next t → t = s) ∧ s.hostRun = some (s, { state := .halted, fault := s.fault }) ∧
    s.hostLoad image = none ∧ s.hostReset = some (State.resetWith s.params)

/-- 70_reset_and_hazards.md R175, 41_engine.md R115 (D7); that a step of an IDLE machine is the entry of `run()` is the
model's choice, log entry 6: RUNNING, and no other effect. -/
def Obligations.IdleTurnStartsTheRun : Prop :=
  ∀ s : State, s.state = .idle → step s = .next { s with state := .running }

/-- Every step answers a next state but a turn on an engine that a fatal error has HALTED (log entry 7): no step is
refused, and no ordinary data ends a run with a fault outcome (41_engine.md R113, 60_exceptions.md R145). -/
def Obligations.EveryStepAnswersNextButAfterAnAbort : Prop :=
  ∀ s : State, (∃ t, step s = .next t) ∨
    ∃ f, s.state = .halted ∧ s.fault = some f ∧ f.fatal = true ∧ step s = .fault (.aborted f)

/-- 60_exceptions.md R145 "A model should treat a state with `fault.fatal = true` as a fault outcome" (the model's
choice of where it shows, log entry 7): a turn on a HALTED engine. -/
def Obligations.AbortedTurnIsTheFaultOutcome : Prop :=
  ∀ (s : State) (f : FaultRecord), s.state = .halted →
    (s.fault = some f → f.fatal = true → step s = .fault (.aborted f)) ∧
    (s.fault = some f → f.fatal = false → step s = .next s) ∧ (s.fault = none → step s = .next s)

/-- 70_reset_and_hazards.md R170 (the spec's inference), with the turns of `run()` of log entry 6: from reset with
nothing loaded, the first turn enters RUNNING and the second halts on the byte `0x00` at address 0. -/
def Obligations.RunWithNothingLoadedHaltsAtOnce : Prop :=
  ∀ p : Params,
    step (State.resetWith p) = .next { State.resetWith p with state := .running } ∧
    ∃ t, Host.Core.run Sys2Proof.core 2 (State.resetWith p) = .next t ∧ t.state = .halted ∧
      t.fault = some { kind := .unrecognizedInstruction, code := some 5, pc := 0, ir := some 0x00#8, detail := 0,
                       fatal := false } ∧
      t.x = p.regReset ∧ t.out = []

/-! ### Runs -/

/-- 41_engine.md R118 (the spec's inference): each step that leaves the engine RUNNING raises the pc by 2 or 3, to at
most 256. -/
def Obligations.RunningStepsRaiseThePc : Prop :=
  ∀ s t : State, s.state = .running → step s = .next t → t.state = .running →
    (t.pc = s.pc + 2 ∨ t.pc = s.pc + 3) ∧ t.pc ≤ 256

/-- 41_engine.md R118 (the spec's inference): every run ends, from any RUNNING state, within 129 steps of the
machine. The fuel of 129 that the loop of `run()` is given is log entry 18. -/
def Obligations.EveryRunEndsWithin129Steps : Prop :=
  ∀ s : State, s.state = .running →
    ∃ k t, k ≤ 129 ∧ Host.Core.run Sys2Proof.core k s = .next t ∧ t.state = .halted ∧ runLoop 129 s = t

/-- 70_reset_and_hazards.md R175, R176 (D7): `run()` on an IDLE engine comes back HALTED with the final state and
latch; while RUNNING it cannot be issued. -/
def Obligations.RunReturnsTheHaltedResult : Prop :=
  ∀ s : State,
    (s.state = .idle → ∃ t, s.hostRun = some (t, { state := .halted, fault := t.fault }) ∧ t.state = .halted ∧
      runLoop 129 { s with state := .running } = t) ∧
    (s.state = .running → s.hostRun = none)

/-- 70_reset_and_hazards.md R176: why a step halted the engine. With no fault latched the instruction was HLT; with a
handled fault it was an unknown opcode, which the record names with its address; else it is a fatal error. -/
def Obligations.TheLatchSaysWhyTheRunEnded : Prop :=
  ∀ s t : State, s.state = .running → s.fault = none → s.pc ≤ 256 → step s = .next t → t.state = .halted →
    (t.fault = none ↔ ∃ rest, decode s.params.addOpcode (bytesAtPc s) = .instr .hlt rest) ∧
    (∀ f, t.fault = some f → (f.fatal = false ↔
      ∃ ir ops rest, decode s.params.addOpcode (bytesAtPc s) = .unknown ir ops rest ∧ f.ir = some ir ∧
        f.pc = s.pc))

/-- 20_memory.md R60 (the spec's inference): no step and no run changes a byte of memory, or a parameter of the
machine. -/
def Obligations.MemoryIsConstantDuringARun : Prop :=
  (∀ s t : State, step s = .next t → (∀ a, t.mem.read a = s.mem.read a) ∧ t.mem = s.mem ∧ t.params = s.params) ∧
  ∀ (n : Nat) (s : State), (runLoop n s).mem = s.mem ∧ (runLoop n s).params = s.params

/-- 10_state.md R35: only PRN emits, it appends the value of its register, and nothing removes or reorders entries
during a run. -/
def Obligations.OutputGrowsOnlyByPrn : Prop :=
  (∀ s t : State, step s = .next t → t.out = s.out ∨
    ∃ r rest v, s.state = .running ∧ decode s.params.addOpcode (bytesAtPc s) = .instr (.prn r) rest ∧
      regGet s.x r = .ok v ∧ t.out = s.out ++ [v]) ∧
  ∀ (n : Nat) (s : State), s.out <+: (runLoop n s).out

/-- 60_exceptions.md R155 "it cannot be read": what stands in the output channel never changes what a step does. -/
def Obligations.OutputIsNeverRead : Prop :=
  ∀ (s t : State) (o : List Byte), step s = .next t →
    step { s with out := o ++ s.out } = .next { t with out := o ++ t.out }

/-- 41_engine.md R104 "reads exactly `1 + n` bytes per step and nothing else": a step is the same whatever the rest of
memory holds. -/
def Obligations.StepReadsOnlyItsInstructionBytes : Prop :=
  ∀ (s t : State) (m : Memory), s.state = .running →
    (∀ a, s.pc ≤ a → a ≤ s.pc + operandCount (opcodeAtPc s) → m.read a = s.mem.read a) → step s = .next t →
    step { s with mem := m } = .next { t with mem := m }

/-! ### The host -/

/-- 20_memory.md R50 to R52, 70_reset_and_hazards.md R171 (D13, log entry 10): in IDLE an image of at most 256 bytes is
written from address 0, the cells past it keep their value and nothing but memory changes; a longer one is refused with
nothing written; in RUNNING and HALTED there is no move. -/
def Obligations.LoadWritesTheImage : Prop :=
  ∀ (s : State) (image : List Nat), s.mem.wf →
    (s.state = .idle → image.length ≤ 256 → (∀ v ∈ image, v ≤ 255) →
      ∃ t, s.hostLoad image = some (t, .ok) ∧ t = { s with mem := t.mem } ∧ t.mem.wf ∧
        (∀ (k : Nat) (h : k < image.length), t.mem.read k = BitVec.ofNat 8 image[k]) ∧
        (∀ a, image.length ≤ a → t.mem.read a = s.mem.read a)) ∧
    (s.state = .idle → 256 < image.length →
      s.hostLoad image = some (s, .error { kind := .outOfBounds, detail := 256 })) ∧
    (s.state ≠ .idle → s.hostLoad image = none)

/-- 20_memory.md R50 with R47: a number above 255 in an image fails the load with InvalidValue. That the cells before
it stay written is the model's reading (log entry 10). -/
def Obligations.LoadStopsAtAValueThatIsNoByte : Prop :=
  ∀ (s : State) (pre post : List Nat) (v : Nat), s.mem.wf → s.state = .idle →
    (pre ++ v :: post).length ≤ 256 → (∀ w ∈ pre, w ≤ 255) → 255 < v →
    ∃ t, s.hostLoad (pre ++ v :: post) = some (t, .error { kind := .invalidValue, detail := v }) ∧
      t = { s with mem := t.mem } ∧
      (∀ (k : Nat) (h : k < pre.length), t.mem.read k = BitVec.ofNat 8 pre[k]) ∧
      (∀ a, pre.length ≤ a → t.mem.read a = s.mem.read a)

/-- 70_reset_and_hazards.md R165, R166, R169 (D14, log entry 11): reset has a move in IDLE and HALTED only, and keeps
nothing from before: every machine with the same parameters comes to the same state. -/
def Obligations.ResetKeepsNothing : Prop :=
  ∀ s s' : State,
    (s.state ≠ .running → s'.state ≠ .running → s.params = s'.params →
      s.hostReset = s'.hostReset ∧ s.hostReset = some (State.resetWith s.params)) ∧
    (s.state = .running → s.hostReset = none)

/-- 70_reset_and_hazards.md R178 (the window is the spec's decision D16, log entry 5): what a snapshot shows. Every register
shows a value, since none is ever unwritten in this model (log entries 1 and 12). -/
def Obligations.SnapshotShowsPcWindowAndRegisters : Prop :=
  ∀ (s : State) (a : Nat) (b : Byte),
    s.snapshot.pc = s.pc ∧ s.snapshot.registers = s.x ∧
    ((a, b) ∈ s.snapshot.memoryWindow ↔
      s.params.snapshotWindow.first ≤ a ∧ a < s.params.snapshotWindow.first + s.params.snapshotWindow.count ∧
      a < 256 ∧ b = s.mem.read a)
end

