-- ==== Sys2Proof/Laws/State.lean ====
section
/-! SUPPORT. One lemma per field per update of State, true by rfl, so that no later proof unfolds a record update. -/

namespace Sys2Proof.Machine

@[simp] theorem State.withMem_mem (s : State) (v : Memory) : (s.withMem v).mem = v := rfl
@[simp] theorem State.withMem_x (s : State) (v : Memory) : (s.withMem v).x = s.x := rfl
@[simp] theorem State.withMem_pc (s : State) (v : Memory) : (s.withMem v).pc = s.pc := rfl
@[simp] theorem State.withMem_state (s : State) (v : Memory) : (s.withMem v).state = s.state := rfl
@[simp] theorem State.withMem_fault (s : State) (v : Memory) : (s.withMem v).fault = s.fault := rfl
@[simp] theorem State.withMem_out (s : State) (v : Memory) : (s.withMem v).out = s.out := rfl
@[simp] theorem State.withMem_params (s : State) (v : Memory) : (s.withMem v).params = s.params := rfl

@[simp] theorem State.withX_mem (s : State) (v : Vector Byte 8) : (s.withX v).mem = s.mem := rfl
@[simp] theorem State.withX_x (s : State) (v : Vector Byte 8) : (s.withX v).x = v := rfl
@[simp] theorem State.withX_pc (s : State) (v : Vector Byte 8) : (s.withX v).pc = s.pc := rfl
@[simp] theorem State.withX_state (s : State) (v : Vector Byte 8) : (s.withX v).state = s.state := rfl
@[simp] theorem State.withX_fault (s : State) (v : Vector Byte 8) : (s.withX v).fault = s.fault := rfl
@[simp] theorem State.withX_out (s : State) (v : Vector Byte 8) : (s.withX v).out = s.out := rfl
@[simp] theorem State.withX_params (s : State) (v : Vector Byte 8) : (s.withX v).params = s.params := rfl

@[simp] theorem State.withPc_mem (s : State) (v : Nat) : (s.withPc v).mem = s.mem := rfl
@[simp] theorem State.withPc_x (s : State) (v : Nat) : (s.withPc v).x = s.x := rfl
@[simp] theorem State.withPc_pc (s : State) (v : Nat) : (s.withPc v).pc = v := rfl
@[simp] theorem State.withPc_state (s : State) (v : Nat) : (s.withPc v).state = s.state := rfl
@[simp] theorem State.withPc_fault (s : State) (v : Nat) : (s.withPc v).fault = s.fault := rfl
@[simp] theorem State.withPc_out (s : State) (v : Nat) : (s.withPc v).out = s.out := rfl
@[simp] theorem State.withPc_params (s : State) (v : Nat) : (s.withPc v).params = s.params := rfl

@[simp] theorem State.withState_mem (s : State) (v : EngineState) : (s.withState v).mem = s.mem := rfl
@[simp] theorem State.withState_x (s : State) (v : EngineState) : (s.withState v).x = s.x := rfl
@[simp] theorem State.withState_pc (s : State) (v : EngineState) : (s.withState v).pc = s.pc := rfl
@[simp] theorem State.withState_state (s : State) (v : EngineState) : (s.withState v).state = v := rfl
@[simp] theorem State.withState_fault (s : State) (v : EngineState) : (s.withState v).fault = s.fault := rfl
@[simp] theorem State.withState_out (s : State) (v : EngineState) : (s.withState v).out = s.out := rfl
@[simp] theorem State.withState_params (s : State) (v : EngineState) : (s.withState v).params = s.params := rfl

@[simp] theorem State.withFault_mem (s : State) (v : Option FaultRecord) : (s.withFault v).mem = s.mem := rfl
@[simp] theorem State.withFault_x (s : State) (v : Option FaultRecord) : (s.withFault v).x = s.x := rfl
@[simp] theorem State.withFault_pc (s : State) (v : Option FaultRecord) : (s.withFault v).pc = s.pc := rfl
@[simp] theorem State.withFault_state (s : State) (v : Option FaultRecord) : (s.withFault v).state = s.state := rfl
@[simp] theorem State.withFault_fault (s : State) (v : Option FaultRecord) : (s.withFault v).fault = v := rfl
@[simp] theorem State.withFault_out (s : State) (v : Option FaultRecord) : (s.withFault v).out = s.out := rfl
@[simp] theorem State.withFault_params (s : State) (v : Option FaultRecord) : (s.withFault v).params = s.params := rfl

@[simp] theorem State.withOut_mem (s : State) (v : List Byte) : (s.withOut v).mem = s.mem := rfl
@[simp] theorem State.withOut_x (s : State) (v : List Byte) : (s.withOut v).x = s.x := rfl
@[simp] theorem State.withOut_pc (s : State) (v : List Byte) : (s.withOut v).pc = s.pc := rfl
@[simp] theorem State.withOut_state (s : State) (v : List Byte) : (s.withOut v).state = s.state := rfl
@[simp] theorem State.withOut_fault (s : State) (v : List Byte) : (s.withOut v).fault = s.fault := rfl
@[simp] theorem State.withOut_out (s : State) (v : List Byte) : (s.withOut v).out = v := rfl
@[simp] theorem State.withOut_params (s : State) (v : List Byte) : (s.withOut v).params = s.params := rfl

/-- Two states with the same fields are the same state. -/
theorem State.ext_fields {s t : State} (hm : s.mem = t.mem) (hx : s.x = t.x) (hp : s.pc = t.pc)
    (hs : s.state = t.state) (hf : s.fault = t.fault) (ho : s.out = t.out) (hq : s.params = t.params) : s = t := by
  cases s; cases t; simp_all

/-! ### The shared operations, field by field -/

@[simp] theorem emit_mem (s : State) (v : Byte) : (emit s v).mem = s.mem := rfl
@[simp] theorem emit_x (s : State) (v : Byte) : (emit s v).x = s.x := rfl
@[simp] theorem emit_pc (s : State) (v : Byte) : (emit s v).pc = s.pc := rfl
@[simp] theorem emit_state (s : State) (v : Byte) : (emit s v).state = s.state := rfl
@[simp] theorem emit_fault (s : State) (v : Byte) : (emit s v).fault = s.fault := rfl
@[simp] theorem emit_out (s : State) (v : Byte) : (emit s v).out = s.out ++ [v] := rfl
@[simp] theorem emit_params (s : State) (v : Byte) : (emit s v).params = s.params := rfl

@[simp] theorem runEntry_mem (s : State) : (runEntry s).mem = s.mem := rfl
@[simp] theorem runEntry_x (s : State) : (runEntry s).x = s.x := rfl
@[simp] theorem runEntry_pc (s : State) : (runEntry s).pc = s.pc := rfl
@[simp] theorem runEntry_state (s : State) : (runEntry s).state = .running := rfl
@[simp] theorem runEntry_fault (s : State) : (runEntry s).fault = s.fault := rfl
@[simp] theorem runEntry_out (s : State) : (runEntry s).out = s.out := rfl
@[simp] theorem runEntry_params (s : State) : (runEntry s).params = s.params := rfl

@[simp] theorem abort_mem (e : ErrorInfo) (s : State) : (abort e s).mem = s.mem := rfl
@[simp] theorem abort_x (e : ErrorInfo) (s : State) : (abort e s).x = s.x := rfl
@[simp] theorem abort_pc (e : ErrorInfo) (s : State) : (abort e s).pc = s.pc := rfl
@[simp] theorem abort_state (e : ErrorInfo) (s : State) : (abort e s).state = .halted := rfl
@[simp] theorem abort_fault (e : ErrorInfo) (s : State) : (abort e s).fault =
    some { kind := e.kind, code := e.kind.code, pc := s.pc, ir := fetchedIr s, detail := e.detail, fatal := e.kind.fatal } := rfl
@[simp] theorem abort_out (e : ErrorInfo) (s : State) : (abort e s).out = s.out := rfl
@[simp] theorem abort_params (e : ErrorInfo) (s : State) : (abort e s).params = s.params := rfl

@[simp] theorem haltUnrecognized_mem (ir : Byte) (s : State) : (haltUnrecognized ir s).mem = s.mem := rfl
@[simp] theorem haltUnrecognized_x (ir : Byte) (s : State) : (haltUnrecognized ir s).x = s.x := rfl
@[simp] theorem haltUnrecognized_state (ir : Byte) (s : State) : (haltUnrecognized ir s).state = .halted := rfl
@[simp] theorem haltUnrecognized_fault (ir : Byte) (s : State) : (haltUnrecognized ir s).fault =
    some { kind := .unrecognizedInstruction, code := some 5, pc := s.pc, ir := some ir, detail := ir.toNat, fatal := false } := rfl
@[simp] theorem haltUnrecognized_out (ir : Byte) (s : State) : (haltUnrecognized ir s).out = s.out := rfl
@[simp] theorem haltUnrecognized_params (ir : Byte) (s : State) : (haltUnrecognized ir s).params = s.params := rfl

end Sys2Proof.Machine
end

