-- ==== Sys2Proof/Laws/Memory.lean ====
section
/-! SUPPORT. Memory: read after write, and that every memory operation keeps the canonical form. -/

namespace Sys2Proof.Machine

@[simp] theorem Memory.read_nil (a : Nat) : Memory.read [] a = 0#8 := rfl

theorem Memory.read_cell (k : Nat) (b : Byte) (t : Memory) (a : Nat) :
    Memory.read ((k, b) :: t) a = if a = k then b else Memory.read t a := rfl

/-- An address below every listed one reads as unlisted. -/
theorem Memory.read_below {m : Memory} {a : Nat} (h : ∀ c ∈ m, a < c.1) : m.read a = 0#8 := by
  induction m with
  | nil => rfl
  | cons c t ih =>
    obtain ⟨k, b⟩ := c
    have hk : a < k := h (k, b) (by simp)
    rw [Memory.read_cell, if_neg (by omega)]
    exact ih fun c hc => h c (by simp [hc])

theorem Memory.wf_nil : Memory.wf [] := by simp [Memory.wf]

theorem Memory.wf_cons_iff (k : Nat) (b : Byte) (t : Memory) :
    Memory.wf ((k, b) :: t) ↔ (∀ c ∈ t, k < c.1) ∧ b ≠ 0#8 ∧ k < 256 ∧ Memory.wf t := by
  simp only [Memory.wf, List.pairwise_cons, List.mem_cons, forall_eq_or_imp]
  tauto

/-- What `Memory.cons` reads as, in front of a list of higher addresses. -/
theorem Memory.read_cons {m : Memory} {a : Nat} (v : Byte) (h : ∀ c ∈ m, a < c.1) (a' : Nat) :
    (Memory.cons a v m).read a' = if a' = a then v else m.read a' := by
  unfold Memory.cons
  split
  · rename_i hv
    split
    · rename_i ha
      rw [ha, hv, Memory.read_below h]
    · rfl
  · rfl

theorem Memory.wf_cons {m : Memory} {a : Nat} (v : Byte) (ha : a < 256) (h : ∀ c ∈ m, a < c.1) (hm : m.wf) :
    (Memory.cons a v m).wf := by
  unfold Memory.cons
  split
  · exact hm
  · exact (Memory.wf_cons_iff a v m).2 ⟨h, ‹_›, ha, hm⟩

/-- A cell of a written memory is the written address or a cell of the old one. -/
theorem Memory.mem_write {m : Memory} {a : Nat} {v : Byte} {c : Host.Cell} (h : c ∈ m.write a v) :
    c.1 = a ∨ c ∈ m := by
  induction m with
  | nil =>
    simp only [Memory.write, Memory.cons] at h
    split at h <;> simp_all
  | cons d t ih =>
    obtain ⟨k, b⟩ := d
    simp only [Memory.write, Memory.cons] at h
    split at h
    · split at h
      · exact .inr h
      · rcases List.mem_cons.1 h with rfl | h
        · exact .inl rfl
        · exact .inr h
    · split at h
      · split at h
        · exact .inr (by simp [h])
        · rcases List.mem_cons.1 h with rfl | h
          · exact .inl rfl
          · exact .inr (by simp [h])
      · rcases List.mem_cons.1 h with rfl | h
        · exact .inr (by simp)
        · rcases ih h with h | h
          · exact .inl h
          · exact .inr (by simp [h])

/-- A write keeps the canonical form. -/
theorem Memory.write_wf {m : Memory} (hm : m.wf) {a : Nat} (ha : a < 256) (v : Byte) : (m.write a v).wf := by
  induction m with
  | nil => exact Memory.wf_cons v ha (by simp) hm
  | cons d t ih =>
    obtain ⟨k, b⟩ := d
    obtain ⟨hlt, hb, hk, ht⟩ := (Memory.wf_cons_iff k b t).1 hm
    unfold Memory.write
    split
    · rename_i hak
      refine Memory.wf_cons v ha ?_ hm
      intro c hc
      rcases List.mem_cons.1 hc with rfl | hc
      · exact hak
      · exact lt_trans hak (hlt c hc)
    · split
      · rename_i hak
        exact Memory.wf_cons v ha (by simpa [hak] using hlt) ht
      · refine (Memory.wf_cons_iff _ _ _).2 ⟨?_, hb, hk, ih ht⟩
        intro c hc
        rcases Memory.mem_write hc with h | h
        · omega
        · exact hlt c h

/-- Reading after a write: the written cell holds the value, every other cell what it held. -/
theorem Memory.read_write {m : Memory} (hm : m.wf) (a : Nat) (v : Byte) (a' : Nat) :
    (m.write a v).read a' = if a' = a then v else m.read a' := by
  induction m with
  | nil => exact Memory.read_cons v (by simp) a'
  | cons d t ih =>
    obtain ⟨k, b⟩ := d
    obtain ⟨hlt, -, -, ht⟩ := (Memory.wf_cons_iff k b t).1 hm
    unfold Memory.write
    split
    · rename_i hak
      refine Memory.read_cons v ?_ a'
      intro c hc
      rcases List.mem_cons.1 hc with rfl | hc
      · exact hak
      · exact lt_trans hak (hlt c hc)
    · split
      · rename_i hak
        subst hak
        rw [Memory.read_cons v hlt, Memory.read_cell]
        split <;> simp_all
      · rw [Memory.read_cell, ih ht, Memory.read_cell]
        split
        · split <;> simp_all
        · rfl

/-- Everything `memRead` can answer. -/
theorem memRead_cases (m : Memory) (a : Nat) :
    (a < 256 ∧ memRead m a = .ok (m.read a)) ∨
    (256 ≤ a ∧ memRead m a = .error { kind := .outOfBounds, detail := a }) := by
  unfold memRead
  split
  · exact .inr ⟨‹_›, rfl⟩
  · exact .inl ⟨by omega, rfl⟩

/-- Everything `memWrite` can answer. -/
theorem memWrite_cases (m : Memory) (a v : Nat) :
    (a < 256 ∧ v ≤ 255 ∧ memWrite m a v = .ok (m.write a (BitVec.ofNat 8 v))) ∨
    (a < 256 ∧ 255 < v ∧ memWrite m a v = .error { kind := .invalidValue, detail := v }) ∨
    (256 ≤ a ∧ memWrite m a v = .error { kind := .outOfBounds, detail := a }) := by
  unfold memWrite
  split
  · exact .inr (.inr ⟨‹_›, rfl⟩)
  · split
    · exact .inr (.inl ⟨by omega, ‹_›, rfl⟩)
    · exact .inl ⟨by omega, by omega, rfl⟩

/-- The write port keeps the canonical form. -/
theorem memWrite_wf {m m' : Memory} {a v : Nat} (hm : m.wf) (h : memWrite m a v = .ok m') : m'.wf := by
  rcases memWrite_cases m a v with ⟨ha, -, he⟩ | ⟨-, -, he⟩ | ⟨-, he⟩ <;> rw [he] at h
  · cases h
    exact Memory.write_wf hm ha _
  · cases h
  · cases h

/-- The loader keeps the canonical form, whether or not it ends in an error. -/
theorem loadFrom_wf {m : Memory} (hm : m.wf) (a : Nat) (vs : List Nat) : (loadFrom m a vs).1.wf := by
  induction vs generalizing m a with
  | nil => exact hm
  | cons v vs ih =>
    unfold loadFrom
    cases h : memWrite m a v with
    | error e => exact hm
    | ok m' => exact ih (memWrite_wf hm h) (a + 1)

/-- Writing a row of bytes inside memory keeps the canonical form. -/
theorem Memory.writeAll_wf {m : Memory} (hm : m.wf) {a : Nat} (bs : List Byte) (h : a + bs.length ≤ 256) :
    (m.writeAll a bs).wf := by
  induction bs generalizing m a with
  | nil => exact hm
  | cons b bs ih =>
    simp only [List.length_cons] at h
    exact ih (Memory.write_wf hm (by omega) b) (by omega)

theorem reset_memory_wf : State.reset.mem.wf := Memory.wf_nil

end Sys2Proof.Machine
end

