-- ==== Sys2Proof/Laws/Ops.lean ====
section
/-! SUPPORT. One lemma per shared operation that says once everything it can answer. -/

namespace Sys2Proof.Machine

/-- Everything the register read port can answer. -/
theorem regGet_cases (x : Vector Byte 8) (i : Byte) :
    (∃ h : i.toNat < 8, regGet x i = .ok x[i.toNat]) ∨
    (8 ≤ i.toNat ∧ regGet x i = .error { kind := .invalidRegister, detail := i.toNat }) := by
  unfold regGet
  split
  · exact .inl ⟨‹_›, rfl⟩
  · exact .inr ⟨by omega, rfl⟩

/-- Everything the register write port can answer. -/
theorem regSet_cases (x : Vector Byte 8) (i : Byte) (v : Nat) :
    (∃ h : i.toNat < 8, v ≤ 255 ∧ regSet x i v = .ok (x.set i.toNat (BitVec.ofNat 8 v))) ∨
    (i.toNat < 8 ∧ 255 < v ∧ regSet x i v = .error { kind := .invalidValue, detail := v }) ∨
    (8 ≤ i.toNat ∧ regSet x i v = .error { kind := .invalidRegister, detail := i.toNat }) := by
  unfold regSet
  split
  · split
    · exact .inr (.inl ⟨‹_›, ‹_›, rfl⟩)
    · exact .inl ⟨‹_›, by omega, rfl⟩
  · exact .inr (.inr ⟨by omega, rfl⟩)

/-- The opcode byte that a record of the latch names. -/
theorem fetchedIr_eq (s : State) : fetchedIr s = if s.pc < 256 then some (opcodeAtPc s) else none := by
  unfold fetchedIr
  rcases memRead_cases s.mem s.pc with ⟨h, he⟩ | ⟨h, he⟩ <;> rw [he]
  · simp [h, opcodeAtPc]
  · simp [Nat.not_lt.2 h]

@[simp] theorem nextPc_advance (pc0 n : Nat) (h : Option Nat) : nextPc pc0 n false h = pc0 + 1 + n := rfl

@[simp] theorem nextPc_handler (pc0 n p : Nat) : nextPc pc0 n true (some p) = p := rfl

@[simp] theorem nextPc_none (pc0 n : Nat) : nextPc pc0 n true none = pc0 := rfl

/-- The end of a handler always answers a next state. -/
theorem finish_next (n : Nat) (sp : Bool) (s : State) (h : HandlerResult) : ∃ t, finish n sp s h = .next t := by
  cases h with
  | error e => exact ⟨_, rfl⟩
  | ok r => exact ⟨_, rfl⟩

/-- Everything the register operand write can answer. -/
theorem writeRegOperand_cases (s : State) (i : Byte) (v : Nat) (hv : v ≤ 255) :
    (∃ h : i.toNat < 8, writeRegOperand s i v = .ok (s.withX (s.x.set i.toNat (BitVec.ofNat 8 v)))) ∨
    (8 ≤ i.toNat ∧ writeRegOperand s i v = .error { kind := .invalidRegister, detail := i.toNat }) := by
  unfold writeRegOperand
  rcases regSet_cases s.x i v with ⟨h, -, he⟩ | ⟨-, h, -⟩ | ⟨h, he⟩
  · exact .inl ⟨h, by rw [he]⟩
  · omega
  · exact .inr ⟨h, by rw [he]⟩

theorem immOperand_le (v : Byte) : immOperand v ≤ 255 := by
  have := v.isLt
  simp only [immOperand]
  omega

@[simp] theorem ofNat_immOperand (v : Byte) : BitVec.ofNat 8 (immOperand v) = v := by simp [immOperand]

theorem aluAdd_le (va vb : Byte) : aluAdd va vb ≤ 255 := by
  simp only [aluAdd]
  omega

/-- Everything reading a row of bytes can answer: the bytes, or OutOfBounds at the first address past memory. -/
theorem readFrom_cases (m : Memory) (a n : Nat) (ha : a ≤ 256) :
    (a + n ≤ 256 ∧ readFrom m a n = .ok ((List.range n).map fun k => m.read (a + k))) ∨
    (256 < a + n ∧ readFrom m a n = .error { kind := .outOfBounds, detail := 256 }) := by
  induction n generalizing a with
  | zero => exact .inl ⟨by omega, by simp [readFrom]⟩
  | succ n ih =>
    unfold readFrom
    rcases memRead_cases m a with ⟨h, he⟩ | ⟨h, he⟩ <;> rw [he]
    · rcases ih (a + 1) (by omega) with ⟨hn, hr⟩ | ⟨hn, hr⟩ <;> simp only [hr]
      · refine .inl ⟨by omega, ?_⟩
        simp [List.range_succ_eq_map, Nat.add_assoc, Nat.add_comm 1, Function.comp_def]
      · exact .inr ⟨by omega, trivial⟩
    · obtain rfl : a = 256 := by omega
      exact .inr ⟨by omega, rfl⟩

/-- The operand count is a 2-bit value. -/
theorem operandCount_le (ir : Byte) : operandCount ir ≤ 3 := by
  have := (ir.extractLsb' 6 2).isLt
  simp only [operandCount]
  omega

end Sys2Proof.Machine

namespace Sys2Proof

/-- The operand count and sets_pc of every byte that P_ADD_OPCODE may be (30_encoding.md R79). -/
theorem AddOpcode.fields (c : AddOpcode) : operandCount c.byte = 2 ∧ setsPc c.byte = false := by
  obtain ⟨b, h⟩ := c
  simp only [addOpcodeLegal, Bool.and_eq_true, beq_iff_eq, bne_iff_ne] at h
  simp [operandCount, setsPc, h.1.1.1]

/-- P_ADD_OPCODE is none of the table's bytes (30_encoding.md R79). -/
theorem AddOpcode.ne_table (c : AddOpcode) : c.byte ≠ 0x82#8 ∧ c.byte ≠ 0x47#8 ∧ c.byte ≠ 0x01#8 := by
  obtain ⟨b, h⟩ := c
  simp only [addOpcodeLegal, Bool.and_eq_true, beq_iff_eq, bne_iff_ne] at h
  exact ⟨h.1.1.2, h.1.2, h.2⟩

end Sys2Proof
end

