-- ==== Sys2Proof/Laws/Decode.lean ====
section
/-! SUPPORT. Decoding of byte lists, one equation per shape of the list, and when an instruction is read. -/

namespace Sys2Proof

@[simp] theorem decode_nil (addOp : Option AddOpcode) : decode addOp [] = .empty := rfl

theorem decode_cons (addOp : Option AddOpcode) (ir : Byte) (rest : List Byte) :
    decode addOp (ir :: rest) =
      if rest.length < operandCount ir then .truncated ir
      else match handlerInstr (dispatch addOp ir) (rest.take (operandCount ir)) with
        | some i => .instr i (rest.drop (operandCount ir))
        | none => .unknown ir (rest.take (operandCount ir)) (rest.drop (operandCount ir)) := rfl

@[simp] theorem dispatch_ldi (addOp : Option AddOpcode) : dispatch addOp 0x82#8 = .ldi := rfl

@[simp] theorem dispatch_prn (addOp : Option AddOpcode) : dispatch addOp 0x47#8 = .prn := rfl

@[simp] theorem dispatch_hlt (addOp : Option AddOpcode) : dispatch addOp 0x01#8 = .hlt := rfl

@[simp] theorem dispatch_add (c : AddOpcode) : dispatch (some c) c.byte = .add := by
  obtain ⟨h1, h2, h3⟩ := c.ne_table
  simp [dispatch, h1, h2, h3]

/-- With as many operand bytes as the opcode byte says, a handler gives no instruction exactly when it is UNKNOWN. -/
theorem handlerInstr_eq_none_iff (addOp : Option AddOpcode) (ir : Byte) (ops : List Byte)
    (h : ops.length = operandCount ir) :
    handlerInstr (dispatch addOp ir) ops = none ↔ dispatch addOp ir = .unknown := by
  refine ⟨fun hn => ?_, fun hu => by rw [hu]; rfl⟩
  unfold dispatch at hn ⊢
  split at hn
  · rename_i hir
    subst hir
    match ops, h with
    | [_, _], _ => cases hn
  · split at hn
    · rename_i hir
      subst hir
      match ops, h with
      | [_], _ => cases hn
    · split at hn
      · rename_i hir
        subst hir
        match ops, h with
        | [], _ => cases hn
      · split at hn
        · rename_i hc
          obtain ⟨c, -, rfl⟩ := Option.map_eq_some_iff.1 hc
          rw [c.fields.1] at h
          match ops, h with
          | [_, _], _ => cases hn
        · simp_all

end Sys2Proof
end

