-- ==== Sys2Proof/Laws/PerInstr.lean ====
section
/-! SUPPORT. Per-instruction laws about an instruction as syntax. -/

namespace Sys2Proof.Laws

/-- The encoding of an instruction is as long as its opcode byte says (30_encoding.md R72, R81), and its opcode byte
has sets_pc 0 (R76, R79). -/
def EncodedLength.Statement (i : Instr) : Prop :=
  ∀ (addOp : Option AddOpcode) (ir : Byte) (ops : List Byte), encode addOp i = some (ir :: ops) →
    (ir :: ops).length = instrLength ir ∧ setsPc ir = false

theorem EncodedLength.ldi (r v : Byte) : EncodedLength.Statement (.ldi r v) := by
  intro addOp ir ops h
  simp only [encode, Option.some.injEq, List.cons.injEq] at h
  obtain ⟨rfl, rfl⟩ := h
  exact ⟨rfl, rfl⟩

theorem EncodedLength.prn (r : Byte) : EncodedLength.Statement (.prn r) := by
  intro addOp ir ops h
  simp only [encode, Option.some.injEq, List.cons.injEq] at h
  obtain ⟨rfl, rfl⟩ := h
  exact ⟨rfl, rfl⟩

theorem EncodedLength.hlt : EncodedLength.Statement .hlt := by
  intro addOp ir ops h
  simp only [encode, Option.some.injEq, List.cons.injEq] at h
  obtain ⟨rfl, rfl⟩ := h
  exact ⟨rfl, rfl⟩

theorem EncodedLength.add (a b : Byte) : EncodedLength.Statement (.add a b) := by
  intro addOp ir ops h
  cases addOp with
  | none => simp [encode] at h
  | some c =>
    simp only [encode, Option.map_some, Option.some.injEq, List.cons.injEq] at h
    obtain ⟨rfl, rfl⟩ := h
    exact ⟨by simp [instrLength, c.fields.1], c.fields.2⟩

end Sys2Proof.Laws
end

