-- ==== Sys2Proof/Laws/Step.lean ====
section
/-! SUPPORT. What fetch can answer, said once, and that the engine always goes to a next state. -/

namespace Sys2Proof.Machine

/-- The operand bytes of the instruction at the pc, when they lie in memory. -/
def operandsAtPc (s : State) : List Byte :=
  (List.range (operandCount (opcodeAtPc s))).map fun k => s.mem.read (s.pc + 1 + k)

/-- Everything fetch can answer (41_engine.md R101 to R106). -/
theorem fetch_cases (s : State) :
    (256 ≤ s.pc ∧ fetch s = .failed { kind := .outOfBounds, detail := s.pc }) ∨
    (s.pc < 256 ∧ 256 < s.pc + 1 + operandCount (opcodeAtPc s) ∧
      fetch s = .failed { kind := .outOfBounds, detail := 256 }) ∨
    (s.pc + 1 + operandCount (opcodeAtPc s) ≤ 256 ∧
      ((∃ i, handlerInstr (dispatch s.params.addOpcode (opcodeAtPc s)) (operandsAtPc s) = some i ∧
          fetch s = .instr i) ∨
       (handlerInstr (dispatch s.params.addOpcode (opcodeAtPc s)) (operandsAtPc s) = none ∧
          fetch s = .unknown (opcodeAtPc s)))) := by
  unfold fetch
  rcases memRead_cases s.mem s.pc with ⟨h, he⟩ | ⟨h, he⟩ <;> simp only [he]
  · right
    rcases readFrom_cases s.mem (s.pc + 1) (operandCount (opcodeAtPc s)) (by omega) with ⟨hn, hr⟩ | ⟨hn, hr⟩ <;>
      simp only [decodeFields, opcodeAtPc] at hn hr ⊢ <;> simp only [hr]
    · right
      refine ⟨hn, ?_⟩
      simp only [operandsAtPc, opcodeAtPc]
      split
      · rename_i i hi
        exact .inl ⟨i, hi, rfl⟩
      · rename_i hi
        exact .inr ⟨hi, rfl⟩
    · exact .inl ⟨h, hn, trivial⟩
  · exact .inl ⟨h, trivial⟩

/-- Every instruction answers a next state. -/
theorem exec_next (i : Instr) (s : State) : ∃ t, exec i s = .next t := by
  cases i with
  | ldi r v => exact finish_next _ _ _ _
  | prn r => exact finish_next _ _ _ _
  | hlt => exact finish_next 0 false s (handleHlt s)
  | add a b => exact finish_next _ _ _ _

/-- The engine's step always answers a next state. -/
theorem engineStep_next (s : State) : ∃ t, engineStep s = .next t := by
  unfold engineStep
  cases fetch s with
  | failed e => exact ⟨_, rfl⟩
  | unknown ir => exact ⟨_, rfl⟩
  | instr i => exact exec_next i s

@[simp] theorem step_running {s : State} (h : s.state = .running) : step s = engineStep s := by simp [step, h]

end Sys2Proof.Machine
end

