-- ==== Sys2Proof/Tests/Slice0.lean ====
section
/-! SUPPORT. The model's own tests (expected results from the tables and vectors of 95_test_vectors.md, or worked out
by hand from the rules named) and, for each statement with hypotheses, a witness that meets them. -/

namespace Sys2Proof.Tests

open Sys2Proof.Machine

/-! ### Helpers -/

/-- A RUNNING engine with the given bytes at the given pc. -/
def stateAt (pc : Nat) (bytes : List Byte) : State :=
  { State.reset with mem := Memory.writeAll [] pc bytes, pc := pc, state := .running }

/-- The same machine with a register set. -/
def setReg (s : State) (i : Fin 8) (v : Byte) : State := { s with x := s.x.set i v }

/-- The general-knowledge value of `P_ADD_OPCODE`, used in the vectors of section 2.6 only. -/
def addA0 : AddOpcode := ⟨0xA0#8, rfl⟩

/-- The same machine with `P_ADD_OPCODE = some 0xA0`. -/
def withAdd (s : State) : State := { s with params := { s.params with addOpcode := some addA0 } }

/-- The same machine with `P_PC_AFTER_UNRECOGNIZED = HOLD`. -/
def withHold (s : State) : State := { s with params := { s.params with pcAfterUnrecognized := .hold } }

/-- The state an outcome goes to. -/
def outState : Host.Outcome State Fault Refusal → Option State
  | .next s => some s
  | .fault _ => none
  | .refused _ => none

/-- A HALTED engine with a latch. -/
def haltedState (f : Option FaultRecord) : State := { State.reset with state := .halted, fault := f }

/-! ### WellFormed: each check refuses an ill-formed term -/

theorem test_wellFormed_refuses_add_without_opcode : Instr.wellFormed none (.add 0#8 1#8) = false := by decide

theorem test_wellFormed_takes_add_with_opcode : Instr.wellFormed (some addA0) (.add 0#8 1#8) = true := by decide

/-- 30_encoding.md R79: a wrong operand count, sets_pc 1, and each of the table's bytes. -/
theorem test_addOpcodeLegal_refuses :
    (addOpcodeLegal 0x60#8, addOpcodeLegal 0x90#8, addOpcodeLegal 0x82#8, addOpcodeLegal 0x47#8,
      addOpcodeLegal 0x01#8) = (false, false, false, false, false) := by decide

/-! ### Decoding: words written out from the spec's encodings -/

/-- 30_encoding.md R77: `10 0 0 0010`. -/
theorem test_decode_ldi : decode none [0b10000010#8, 0b00000000#8, 0b00001000#8] = .instr (.ldi 0#8 8#8) [] := by decide

/-- 30_encoding.md R78: `01 0 0 0111`. -/
theorem test_decode_prn : decode none [0b01000111#8, 0b00000111#8, 1#8] = .instr (.prn 7#8) [1#8] := by decide

/-- 30_encoding.md R80: `00 0 0 0001`. -/
theorem test_decode_hlt : decode none [0b00000001#8, 0x47#8] = .instr .hlt [0x47#8] := by decide

/-- 30_encoding.md R79 with the value `10100000`. -/
theorem test_decode_add :
    decode (some addA0) [0b10100000#8, 0b00000001#8, 0b00001001#8] = .instr (.add 1#8 9#8) [] := by decide

/-- 95_test_vectors.md 2.1: bytes one bit or one field off a known opcode are unknown. -/
theorem test_dispatch_near_misses :
    [0x00#8, 0x02#8, 0x07#8, 0x41#8, 0x83#8, 0xC2#8, 0x10#8, 0x50#8, 0xA0#8, 0xC0#8, 0xFF#8].map (dispatch none) =
      List.replicate 11 .unknown := by decide

/-- 95_test_vectors.md 2.1: operand counts and sets_pc. -/
theorem test_decodeFields_table :
    [0x00#8, 0x41#8, 0x82#8, 0xC2#8, 0x10#8, 0x50#8, 0xFF#8].map (fun b => (operandCount b, setsPc b)) =
      [(0, false), (1, false), (2, false), (3, false), (0, true), (1, true), (3, true)] := by decide

/-- 30_encoding.md R82: 253 of the 256 byte values are unknown; 252 with `P_ADD_OPCODE` set. -/
theorem test_unknown_count :
    ((List.range 256).countP (fun k => dispatch none (BitVec.ofNat 8 k) = .unknown),
      (List.range 256).countP (fun k => dispatch (some addA0) (BitVec.ofNat 8 k) = .unknown)) = (253, 252) := by
  decide +kernel

theorem test_table_word_ldi : decodeTableWord 24 0x050382 = some (.ldi 3#8 5#8) := by decide

theorem test_table_word_short : decodeTableWord 8 0x47 = some (.prn 0#8) := by decide

theorem test_table_word_unknown : decodeTableWord 24 0x0100A0 = none := by decide

/-- The word placed for the next step is the one the decoder reads, right after reset. -/
theorem test_withFetchWord_runs :
    (fetch (State.reset.withFetchWord 24 0x050382), (State.reset.withFetchWord 24 0x050382).state,
      fetch ({ State.reset with pc := 254 }.withFetchWord 24 0x050382)) =
      (.instr (.ldi 3#8 5#8), .running, .instr (.ldi 3#8 5#8)) := by decide

/-! ### One step of each instruction -/

/-- 95_test_vectors.md LDI-2: `82 07 FF`. -/
theorem test_ldi_writes :
    outState (step (stateAt 0 [0x82#8, 7#8, 0xFF#8])) =
      some { stateAt 0 [0x82#8, 7#8, 0xFF#8] with x := #v[0#8, 0#8, 0#8, 0#8, 0#8, 0#8, 0#8, 0xFF#8], pc := 3 } := by
  decide

/-- 95_test_vectors.md LDI-4: `82 08 01`. -/
theorem test_ldi_register_8 :
    (outState (step (stateAt 0 [0x82#8, 8#8, 1#8]))).map (fun t => (t.fault, t.pc, t.state, t.x)) =
      some (some ⟨.invalidRegister, some 2, 0, some 0x82#8, 8, true⟩, 0, .halted, State.reset.x) := by decide

/-- 95_test_vectors.md PRN-6: at 254. -/
theorem test_prn_emits :
    (outState (step (setReg (stateAt 254 [0x47#8, 1#8]) 1 3#8))).map (fun t => (t.out, t.pc, t.state)) =
      some ([3#8], 256, .running) := by decide

/-- 95_test_vectors.md PRN-7: at 255. -/
theorem test_prn_past_memory :
    (outState (step (stateAt 255 [0x47#8]))).map (fun t => (t.fault, t.pc, t.out)) =
      some (some ⟨.outOfBounds, some 1, 255, some 0x47#8, 256, true⟩, 255, []) := by decide

/-- 95_test_vectors.md HLT-2: at 255. -/
theorem test_hlt_halts :
    (outState (step (stateAt 255 [0x01#8]))).map (fun t => (t.state, t.pc, t.fault)) =
      some (.halted, 256, none) := by decide

/-- 95_test_vectors.md ALU-2: 200 + 100. -/
theorem test_add_wraps :
    (outState (step (withAdd (setReg (setReg (stateAt 0 [0xA0#8, 0#8, 1#8]) 0 200#8) 1 100#8)))).map
      (fun t => (t.x[0], t.x[1], t.pc)) = some (44#8, 100#8, 3) := by decide

/-- 95_test_vectors.md ALU-5 and ALU-9: the destination as both sources; operand 1 is checked first. -/
theorem test_add_corners :
    (outState (step (withAdd (setReg (stateAt 0 [0xA0#8, 0#8, 0#8]) 0 130#8)))).map (fun t => t.x[0]) = some 4#8 ∧
    (outState (step (withAdd (stateAt 0 [0xA0#8, 9#8, 12#8])))).map (fun t => t.fault) =
      some (some ⟨.invalidRegister, some 2, 0, some 0xA0#8, 9, true⟩) := by decide

/-! ### The engine -/

/-- 95_test_vectors.md ENG-1, ENG-7. -/
theorem test_fetch_past_memory :
    (outState (step (stateAt 256 []))).map (fun t => t.fault) =
      some (some ⟨.outOfBounds, some 1, 256, none, 256, true⟩) ∧
    (outState (step (stateAt 253 [0xC0#8]))).map (fun t => (t.fault, t.pc)) =
      some (some ⟨.outOfBounds, some 1, 253, some 0xC0#8, 256, true⟩, 253) := by decide

/-- 95_test_vectors.md ENG-2, ENG-4, ENG-5, ENG-6. -/
theorem test_unknown_opcodes :
    (outState (step (stateAt 0 [0x00#8]))).map (fun t => (t.fault, t.pc, t.state)) =
      some (some ⟨.unrecognizedInstruction, some 5, 0, some 0x00#8, 0, false⟩, 1, .halted) ∧
    (outState (step (withHold (stateAt 0 [0x00#8])))).map (fun t => t.pc) = some 0 ∧
    (outState (step (stateAt 10 [0x50#8, 7#8]))).map (fun t => t.pc) = some 10 ∧
    (outState (step (withHold (stateAt 0 [0xC0#8, 1#8, 2#8, 3#8])))).map (fun t => t.pc) = some 0 ∧
    (outState (step (stateAt 252 [0xC0#8]))).map (fun t => t.pc) = some 256 := by decide

/-- 95_test_vectors.md MEM-6, MEM-7, MEM-8. -/
theorem test_load :
    State.reset.hostLoad (List.replicate 257 0) =
      some (State.reset, .error { kind := .outOfBounds, detail := 256 }) ∧
    (State.reset.hostLoad [0x82, 300]).map (fun r => (r.1.mem, r.2)) =
      some ([(0, 0x82#8)], .error { kind := .invalidValue, detail := 300 }) ∧
    ((State.reset.hostLoad [1]).bind fun (r : State × LoadReply) => r.1.hostLoad [0x47, 0]).map
      (fun r => (r.1.mem, r.2)) = some ([(0, 0x47#8)], .ok) := by decide +kernel

/-- 95_test_vectors.md FSM-2, FSM-3, FSM-4, FSM-6. -/
theorem test_host_requests :
    (haltedState none).hostRun = some (haltedState none, { state := .halted, fault := none }) ∧
    { stateAt 3 [1#8] with state := .halted }.hostReset = some State.reset ∧
    (stateAt 0 []).hostReset = none ∧ (stateAt 0 []).hostLoad [1] = none ∧
    (outState (step State.reset)).map (fun t => t.state) = some .running := by decide

/-- 95_test_vectors.md S1, the source's end-to-end scenario: one run of three instructions. -/
theorem test_source_scenario :
    ((State.reset.hostLoad [0b10000010, 0, 0b00001000, 0b01000111, 0, 0b00000001]).bind
      fun (r : State × LoadReply) => r.1.hostRun).map
      (fun (r : State × RunResult) => (r.1.out, r.2.state, r.2.fault, r.1.x[0], r.1.pc)) =
      some ([8#8], .halted, none, 8#8, 6) := by decide

/-- 95_test_vectors.md FSM-5: a window of two cells at the top of memory ends with memory. -/
theorem test_snapshot :
    { stateAt 255 [9#8] with params := { defaultParams with snapshotWindow := ⟨254, 4⟩ } }.snapshot =
      { pc := 255, memoryWindow := [(254, 0#8), (255, 9#8)], registers := State.reset.x } := by decide

/-! ### Witnesses of the statements' hypotheses -/

/-- A RUNNING engine in reset state meets the invariant. -/
theorem running_inv : (stateAt 0 [0x82#8, 7#8, 5#8]).Inv :=
  ⟨by decide, by decide, by decide, by decide, fun r h => by cases h⟩

/-- A record of an aborted run. -/
def abortedRecord : FaultRecord := ⟨.outOfBounds, some 1, 256, none, 256, true⟩

/-- A record of a handled halt. -/
def handledRecord : FaultRecord := ⟨.unrecognizedInstruction, some 5, 0, some 0#8, 0, false⟩

theorem halted_inv : (haltedState (some handledRecord)).Inv :=
  ⟨by decide, by decide, by decide, by decide, fun r h => by cases h; exact ⟨rfl, rfl⟩⟩

theorem reset_inv : State.reset.Inv :=
  ⟨by decide, by decide, by decide, by decide, fun r h => by cases h⟩

theorem witness_LengthComesFromTheOpcodeByteAlone :
    decode none (0x82#8 :: [7#8, 255#8, 1#8]) = .instr (.ldi 7#8 255#8) [1#8] ∧
    decode none (0xC0#8 :: [1#8, 2#8, 3#8]) = .unknown 0xC0#8 [1#8, 2#8, 3#8] [] ∧
    decode none (0xC0#8 :: [1#8, 2#8]) = .truncated 0xC0#8 := by decide

theorem witness_EveryOtherByteIsUnknown :
    setsPc 0x92#8 = true ∧ operandCount 0xC2#8 = 3 ∧ dispatch none 0x41#8 = .unknown ∧
    [9#8].length = operandCount 0x41#8 := by decide

theorem witness_EncodeThenDecodeReturnsTheInstruction :
    Instr.wellFormed none (.ldi 255#8 255#8) = true ∧ Instr.wellFormed none (.prn 8#8) = true ∧
    Instr.wellFormed none .hlt = true ∧ Instr.wellFormed (some addA0) (.add 7#8 255#8) = true := by decide

theorem witness_DecodeThenEncodeReturnsTheBytes :
    decode (some addA0) [0xA0#8, 0#8, 255#8, 1#8] = .instr (.add 0#8 255#8) [1#8] := by decide

theorem witness_StepKeepsTheInvariant :
    ∃ s t : State, s.Inv ∧ s.state = .running ∧ step s = .next t ∧ t ≠ s :=
  ⟨_, _, running_inv, rfl, rfl, by decide⟩

theorem witness_HostRequestsKeepTheInvariant :
    State.reset.Inv ∧ State.reset.hostReset.isSome = true ∧ (State.reset.hostLoad [1, 255]).isSome = true ∧
    State.reset.hostRun.isSome = true :=
  ⟨reset_inv, by decide, by decide, by decide⟩

theorem witness_MemoryPortContract :
    Memory.wf [(0, 1#8), (255, 2#8)] ∧ (255 : Nat) < 256 ∧ (256 : Nat) ≤ 256 ∧ (255 : Nat) ≤ 255 ∧
    (255 : Nat) < 256 := by decide

theorem witness_WritePortsCheckTheAddressFirst :
    (256 : Nat) ≤ 256 ∧ (255 : Nat) < 256 ∧ 8 ≤ (8#8).toNat := by decide

theorem witness_CanonicalMemoriesWithEqualBytesAreEqual :
    ∃ m m' : Memory, m ≠ [] ∧ m.wf ∧ m'.wf ∧ ∀ a, a < 256 → m.read a = m'.read a :=
  ⟨[(255, 1#8)], Memory.write [] 255 1#8, by decide, by decide, by decide, fun _ _ => rfl⟩

theorem witness_RegisterPortContract :
    (7#8).toNat < 8 ∧ 8 ≤ (8#8).toNat ∧ 8 ≤ (255#8).toNat ∧ (255 : Nat) ≤ 255 ∧ (255 : Nat) < 256 := by decide

theorem witness_AluAdditionWraps :
    (255#8).toNat + (0#8).toNat ≤ 255 ∧ 256 ≤ (255#8).toNat + (1#8).toNat := by decide

theorem witness_AluApplyContract :
    8 ≤ (8#8).toNat ∧ (7#8).toNat < 8 ∧ AluSelect.spare 3 = .spare 3 ∧ AluSelect.op .add = .op .add := by decide

theorem witness_InstructionsComplete :
    (0#8).toNat < 8 ∧ (7#8).toNat < 8 ∧
    (exec (.ldi 7#8 255#8) State.reset = .next { State.reset with x := State.reset.x.set 7 255#8, pc := 3 }) ∧
    (exec (.prn 7#8) State.reset = .next { State.reset with out := [0#8], pc := 2 }) ∧
    (exec (.add 7#8 7#8) (setReg State.reset 7 129#8) =
      .next { State.reset with x := State.reset.x.set 7 2#8, pc := 3 }) :=
  ⟨by decide, by decide, rfl, rfl, rfl⟩

theorem witness_RegisterOperandPast7Aborts :
    (stateAt 255 []).pc < 256 ∧ 8 ≤ (8#8).toNat ∧ (7#8).toNat < 8 ∧ 8 ≤ (255#8).toNat := by decide

theorem witness_RegisterWritersFrame :
    (∃ t, exec (.ldi 7#8 1#8) State.reset = .next t ∧ t.x ≠ State.reset.x) ∧
    (∃ t, exec (.ldi 8#8 1#8) State.reset = .next t ∧ t.state = .halted) ∧
    (∃ t, exec (.add 7#8 0#8) (setReg State.reset 0 1#8) = .next t ∧ t.x[7] = 1#8) ∧
    (∃ t, exec (.add 7#8 8#8) State.reset = .next t ∧ t.state = .halted) :=
  ⟨⟨_, rfl, by decide⟩, ⟨_, rfl, by decide⟩, ⟨_, rfl, by decide⟩, ⟨_, rfl, by decide⟩⟩

theorem witness_PrnAndHltFrame :
    (∃ t, exec (.prn 7#8) State.reset = .next t ∧ t.out = [0#8]) ∧
    (∃ t, exec (.prn 8#8) State.reset = .next t ∧ t.out = []) ∧
    (∃ t, exec .hlt State.reset = .next t ∧ t.state = .halted) :=
  ⟨⟨_, rfl, by decide⟩, ⟨_, rfl, by decide⟩, ⟨_, rfl, by decide⟩⟩

theorem witness_StepRunsTheDecodedInstruction :
    (stateAt 253 [0x82#8, 0#8, 5#8]).state = .running ∧
    decode (stateAt 253 [0x82#8, 0#8, 5#8]).params.addOpcode (bytesAtPc (stateAt 253 [0x82#8, 0#8, 5#8])) =
      .instr (.ldi 0#8 5#8) [] := by decide

theorem witness_StepOnBytesThatDoNotDecode :
    decode none (bytesAtPc (stateAt 256 [])) = .empty ∧
    decode none (bytesAtPc (stateAt 254 [0x82#8, 8#8])) = .truncated 0x82#8 ∧
    decode none (bytesAtPc (stateAt 255 [0x10#8])) = .unknown 0x10#8 [] [] ∧
    (stateAt 256 []).pc ≤ 256 ∧ (stateAt 256 []).state = .running := by decide

theorem witness_LdiStep :
    (stateAt 253 [0x82#8, 7#8, 5#8]).state = .running ∧ (stateAt 253 [0x82#8, 7#8, 5#8]).mem.read 253 = 0x82#8 ∧
    (stateAt 253 [0x82#8, 7#8, 5#8]).pc ≤ 253 ∧ (7#8).toNat < 8 ∧ 8 ≤ (8#8).toNat ∧
    (stateAt 254 [0x82#8]).mem.read 254 = 0x82#8 ∧ 254 ≤ (stateAt 254 [0x82#8]).pc ∧
    (stateAt 255 [0x82#8]).mem.read 255 = 0x82#8 ∧ (stateAt 255 [0x82#8]).pc ≤ 255 := by decide

theorem witness_PrnStep :
    (stateAt 254 [0x47#8, 7#8]).state = .running ∧ (stateAt 254 [0x47#8, 7#8]).mem.read 254 = 0x47#8 ∧
    (stateAt 254 [0x47#8, 7#8]).pc ≤ 254 ∧ (7#8).toNat < 8 ∧ 8 ≤ (8#8).toNat ∧
    (stateAt 255 [0x47#8]).mem.read 255 = 0x47#8 ∧ (stateAt 255 [0x47#8]).pc = 255 := by decide

theorem witness_HltStep :
    (stateAt 255 [0x01#8]).state = .running ∧ (stateAt 255 [0x01#8]).pc ≤ 255 ∧
    (stateAt 255 [0x01#8]).mem.read 255 = 0x01#8 := by decide

theorem witness_AddStep :
    (withAdd (stateAt 253 [0xA0#8, 7#8, 8#8])).state = .running ∧
    (withAdd (stateAt 253 [0xA0#8, 7#8, 8#8])).params.addOpcode = some addA0 ∧
    (withAdd (stateAt 253 [0xA0#8, 7#8, 8#8])).mem.read 253 = addA0.byte ∧
    (withAdd (stateAt 253 [0xA0#8, 7#8, 8#8])).pc ≤ 253 ∧ (7#8).toNat < 8 ∧ 8 ≤ (8#8).toNat ∧
    (withAdd (stateAt 255 [0xA0#8])).mem.read 255 = addA0.byte ∧ 254 ≤ (withAdd (stateAt 254 [0xA0#8])).pc := by
  decide

theorem witness_FetchPastMemoryAborts :
    (stateAt 256 []).state = .running ∧ (stateAt 256 []).pc = 256 ∧ (stateAt 255 [0x47#8]).pc ≤ 255 ∧
    255 < (stateAt 255 [0x47#8]).pc + (opcodeAtPc (stateAt 255 [0x47#8])).toNat / 64 ∧
    255 < (stateAt 253 [0xFF#8]).pc + (opcodeAtPc (stateAt 253 [0xFF#8])).toNat / 64 := by decide

theorem witness_UnknownOpcodes :
    (stateAt 252 [0xC0#8]).state = .running ∧ (stateAt 255 [0x10#8]).state = .running ∧
    dispatch (stateAt 255 [0x10#8]).params.addOpcode (opcodeAtPc (stateAt 255 [0x10#8])) = .unknown ∧
    (stateAt 252 [0xC0#8]).pc + (opcodeAtPc (stateAt 252 [0xC0#8])).toNat / 64 ≤ 255 ∧
    dispatch (stateAt 252 [0xC0#8]).params.addOpcode (opcodeAtPc (stateAt 252 [0xC0#8])) = .unknown ∧
    (stateAt 252 [0xC0#8]).params.pcAfterUnrecognized = .advance ∧
    setsPc (opcodeAtPc (stateAt 252 [0xC0#8])) = false ∧ setsPc (opcodeAtPc (stateAt 255 [0x10#8])) = true ∧
    (withHold (stateAt 252 [0xC0#8])).params.pcAfterUnrecognized = .hold ∧
    (outState (step (stateAt 252 [0xC0#8]))).isSome = true := by decide

theorem witness_PcAdvancesByTheInstructionLength :
    ∃ t, (stateAt 253 [0x82#8, 7#8, 5#8]).state = .running ∧ step (stateAt 253 [0x82#8, 7#8, 5#8]) = .next t ∧
      t.fault = none :=
  ⟨_, rfl, rfl, by decide⟩

theorem witness_FatalErrorsArePrecise :
    (∃ t f, (stateAt 256 []).state = .running ∧ (stateAt 256 []).fault = none ∧ (stateAt 256 []).pc ≤ 256 ∧
      step (stateAt 256 []) = .next t ∧ t.fault = some f ∧ f.fatal = true) ∧
    (∃ t f, (stateAt 254 [0x47#8, 8#8]).state = .running ∧ step (stateAt 254 [0x47#8, 8#8]) = .next t ∧
      t.fault = some f ∧ f.fatal = true ∧ f.kind = .invalidRegister) :=
  ⟨⟨_, _, rfl, rfl, by decide, rfl, rfl, rfl⟩, ⟨_, _, rfl, rfl, rfl, rfl, rfl⟩⟩

theorem witness_StepWritesAtMostOneThing :
    ∃ t, (stateAt 254 [0x47#8]).state = .running ∧ step (stateAt 254 [0x47#8]) = .next t ∧ t.out = [0#8] :=
  ⟨_, rfl, rfl, by decide⟩

theorem witness_LatchIsWrittenOnceAndHalts :
    (∃ s t : State, s.Inv ∧ step s = .next t ∧ s.fault ≠ none) ∧
    (∃ s t : State, s.Inv ∧ step s = .next t ∧ t.fault ≠ s.fault) :=
  ⟨⟨_, haltedState (some handledRecord), halted_inv, rfl, by decide⟩,
   ⟨runEntry State.reset, _, ⟨by decide, by decide, by decide, by decide, fun r h => by cases h⟩, rfl, by decide⟩⟩

theorem witness_StepFollowsTheTransitionTable :
    (∃ t, step State.reset = .next t ∧ State.reset.state = .idle) ∧
    (∃ t, step (stateAt 0 [0x01#8]) = .next t ∧ (stateAt 0 [0x01#8]).state = .running) ∧
    (∃ t, step (haltedState none) = .next t ∧ (haltedState none).state = .halted) :=
  ⟨⟨_, rfl, rfl⟩, ⟨_, rfl, rfl⟩, ⟨_, rfl, rfl⟩⟩

theorem witness_HaltedStaysUntilReset :
    (haltedState (some abortedRecord)).state = .halted ∧ step (haltedState none) = .next (haltedState none) :=
  ⟨rfl, rfl⟩

theorem witness_AbortedTurnIsTheFaultOutcome :
    (haltedState (some abortedRecord)).state = .halted ∧ abortedRecord.fatal = true ∧
    (haltedState (some handledRecord)).fault = some handledRecord ∧ handledRecord.fatal = false ∧
    (haltedState none).fault = none := by decide

theorem witness_IdleTurnStartsTheRun : State.reset.state = .idle := rfl

theorem witness_RunningStepsRaiseThePc :
    ∃ t, (stateAt 254 [0x47#8]).state = .running ∧ step (stateAt 254 [0x47#8]) = .next t ∧ t.state = .running :=
  ⟨_, rfl, rfl, rfl⟩

theorem witness_EveryRunEndsWithin129Steps :
    (stateAt 0 [0x47#8]).state = .running ∧ (stateAt 1000 []).state = .running := by decide

theorem witness_RunReturnsTheHaltedResult :
    State.reset.state = .idle ∧ (stateAt 0 []).state = .running := by decide

theorem witness_TheLatchSaysWhyTheRunEnded :
    (∃ t, (stateAt 255 [0x01#8]).state = .running ∧ (stateAt 255 [0x01#8]).fault = none ∧
      (stateAt 255 [0x01#8]).pc ≤ 256 ∧ step (stateAt 255 [0x01#8]) = .next t ∧ t.state = .halted ∧
      t.fault = none) ∧
    (∃ t f, step (stateAt 0 [0x10#8]) = .next t ∧ t.state = .halted ∧ t.fault = some f ∧ f.fatal = false) ∧
    (∃ t f, step (stateAt 255 [0x82#8]) = .next t ∧ t.state = .halted ∧ t.fault = some f ∧ f.fatal = true) :=
  ⟨⟨_, rfl, rfl, by decide, rfl, rfl, rfl⟩, ⟨_, _, rfl, rfl, rfl, rfl⟩, ⟨_, _, rfl, rfl, rfl, rfl⟩⟩

theorem witness_StepsOfEveryState :
    ∃ s t : State, step s = .next t ∧ t.out ≠ s.out :=
  ⟨stateAt 254 [0x47#8], _, rfl, by decide⟩

theorem witness_StepReadsOnlyItsInstructionBytes :
    ∃ (s t : State) (m : Memory), s.state = .running ∧ m ≠ s.mem ∧
      (∀ a, s.pc ≤ a → a ≤ s.pc + operandCount (opcodeAtPc s) → m.read a = s.mem.read a) ∧ step s = .next t := by
  refine ⟨stateAt 1 [0x47#8, 7#8], _, (stateAt 1 [0x47#8, 7#8]).mem.write 3 9#8, rfl, by decide, ?_, rfl⟩
  intro a h1 h2
  have hpc : (stateAt 1 [0x47#8, 7#8]).pc = 1 := rfl
  have hn : operandCount (opcodeAtPc (stateAt 1 [0x47#8, 7#8])) = 1 := by decide
  rw [Memory.read_write (by decide), if_neg (by omega)]

theorem witness_LoadWritesTheImage :
    State.reset.mem.wf ∧ State.reset.state = .idle ∧ (List.replicate 256 255).length ≤ 256 ∧
    (∀ v ∈ List.replicate 256 255, v ≤ 255) ∧ 256 < (List.replicate 257 0).length ∧
    (stateAt 0 []).state ≠ .idle ∧ (haltedState none).state ≠ .idle :=
  ⟨by decide, by decide, le_of_eq List.length_replicate, fun v h => by rw [List.eq_of_mem_replicate h],
   lt_of_lt_of_eq (by omega) List.length_replicate.symm, by decide, by decide⟩

theorem witness_LoadStopsAtAValueThatIsNoByte :
    State.reset.mem.wf ∧ State.reset.state = .idle ∧ ([255, 1] ++ 256 :: [7]).length ≤ 256 ∧
    (∀ w ∈ [255, 1], w ≤ 255) ∧ 255 < 256 := by decide

theorem witness_ResetKeepsNothing :
    State.reset.state ≠ .running ∧ (haltedState (some abortedRecord)).state ≠ .running ∧
    State.reset.params = (haltedState (some abortedRecord)).params ∧ State.reset ≠ haltedState (some abortedRecord) ∧
    (stateAt 0 []).state = .running := by decide

end Sys2Proof.Tests
end

section
/-! The register ports, and what each instruction answers: one equation per case of its register operands. -/

namespace Sys2Proof.Machine

/-! ### The register ports -/

theorem regGet_of_lt (x : Vector Byte 8) {i : Byte} (h : i.toNat < 8) : regGet x i = .ok x[i.toNat] := dif_pos h

theorem regGet_of_ge (x : Vector Byte 8) {i : Byte} (h : 8 ≤ i.toNat) :
    regGet x i = .error { kind := .invalidRegister, detail := i.toNat } := dif_neg (by omega)

theorem regSet_of_lt (x : Vector Byte 8) {i : Byte} {v : Nat} (h : i.toNat < 8) (hv : v ≤ 255) :
    regSet x i v = .ok (x.set i.toNat (BitVec.ofNat 8 v)) := by
  simp [regSet, h, Nat.not_lt.2 hv]

theorem regSet_of_value_gt (x : Vector Byte 8) {i : Byte} {v : Nat} (h : i.toNat < 8) (hv : 255 < v) :
    regSet x i v = .error { kind := .invalidValue, detail := v } := by
  simp [regSet, h, hv]

theorem regSet_of_ge (x : Vector Byte 8) {i : Byte} (v : Nat) (h : 8 ≤ i.toNat) :
    regSet x i v = .error { kind := .invalidRegister, detail := i.toNat } := dif_neg (by omega)

/-- A register after a write of register `i`. -/
theorem getElem_set_register (x : Vector Byte 8) {i : Nat} (h : i < 8) (v : Byte) (j : Fin 8) :
    (x.set i v)[j] = if j.val = i then v else x[j] := by
  simp only [Fin.getElem_fin, Vector.getElem_set, eq_comm]

@[simp] theorem readRegOperand_eq (s : State) (i : Byte) : readRegOperand s i = regGet s.x i := rfl

theorem writeRegOperand_of_lt (s : State) {i : Byte} {v : Nat} (h : i.toNat < 8) (hv : v ≤ 255) :
    writeRegOperand s i v = .ok (s.withX (s.x.set i.toNat (BitVec.ofNat 8 v))) := by
  simp [writeRegOperand, regSet_of_lt s.x h hv]

theorem writeRegOperand_of_ge (s : State) {i : Byte} (v : Nat) (h : 8 ≤ i.toNat) :
    writeRegOperand s i v = .error { kind := .invalidRegister, detail := i.toNat } := by
  simp [writeRegOperand, regSet_of_ge s.x v h]

/-! ### The instructions -/

/-- LDI of a register 0..7 (42_ldi.md R125). -/
theorem exec_ldi_of_lt (s : State) {r : Byte} (v : Byte) (h : r.toNat < 8) :
    exec (.ldi r v) s = .next ((s.withX (s.x.set r.toNat v)).withPc (s.pc + 3)) := by
  simp [exec, execLdi, handleLdi, finish, writeRegOperand_of_lt s h (immOperand_le v)]

/-- LDI of a register past 7 (60_exceptions.md R142). -/
theorem exec_ldi_of_ge (s : State) {r : Byte} (v : Byte) (h : 8 ≤ r.toNat) :
    exec (.ldi r v) s = .next (abort { kind := .invalidRegister, detail := r.toNat } s) := by
  simp [exec, execLdi, handleLdi, finish, writeRegOperand_of_ge s _ h]

/-- PRN of a register 0..7 (43_prn.md R130). -/
theorem exec_prn_of_lt (s : State) {r : Byte} (h : r.toNat < 8) :
    exec (.prn r) s = .next ((emit s s.x[r.toNat]).withPc (s.pc + 2)) := by
  simp [exec, execPrn, handlePrn, finish, regGet_of_lt s.x h]

/-- PRN of a register past 7 (60_exceptions.md R142). -/
theorem exec_prn_of_ge (s : State) {r : Byte} (h : 8 ≤ r.toNat) :
    exec (.prn r) s = .next (abort { kind := .invalidRegister, detail := r.toNat } s) := by
  simp [exec, execPrn, handlePrn, finish, regGet_of_ge s.x h]

/-- HLT (44_hlt.md R135, R136). -/
theorem exec_hlt (s : State) : exec .hlt s = .next ((s.withState .halted).withPc (s.pc + 1)) := rfl

/-- ADD of registers 0..7 (40_alu.md R93, R94). -/
theorem exec_add_of_lt (s : State) {a b : Byte} (ha : a.toNat < 8) (hb : b.toNat < 8) :
    exec (.add a b) s = .next ((s.withX (s.x.set a.toNat
      (BitVec.ofNat 8 (aluAdd s.x[a.toNat] s.x[b.toNat])))).withPc (s.pc + 3)) := by
  simp [exec, execAdd, handleAdd, aluApply, aluResult, finish, regGet_of_lt s.x ha, regGet_of_lt s.x hb,
    writeRegOperand_of_lt s ha (aluAdd_le _ _)]

/-- ADD whose first register is past 7: it is the one the record names (D12). -/
theorem exec_add_of_left_ge (s : State) {a : Byte} (b : Byte) (ha : 8 ≤ a.toNat) :
    exec (.add a b) s = .next (abort { kind := .invalidRegister, detail := a.toNat } s) := by
  simp [exec, execAdd, handleAdd, aluApply, finish, regGet_of_ge s.x ha]

/-- ADD whose second register alone is past 7. -/
theorem exec_add_of_right_ge (s : State) {a b : Byte} (ha : a.toNat < 8) (hb : 8 ≤ b.toNat) :
    exec (.add a b) s = .next (abort { kind := .invalidRegister, detail := b.toNat } s) := by
  simp [exec, execAdd, handleAdd, aluApply, finish, regGet_of_lt s.x ha, regGet_of_ge s.x hb]

/-- Everything LDI can do. -/
theorem exec_ldi_cases {r v : Byte} {s t : State} (h : exec (.ldi r v) s = .next t) :
    (∃ _ : r.toNat < 8, t = (s.withX (s.x.set r.toNat v)).withPc (s.pc + 3)) ∨
    (8 ≤ r.toNat ∧ t = abort { kind := .invalidRegister, detail := r.toNat } s) := by
  rcases Nat.lt_or_ge r.toNat 8 with hr | hr
  · exact .inl ⟨hr, by simpa [exec_ldi_of_lt s v hr] using h.symm⟩
  · exact .inr ⟨hr, by simpa [exec_ldi_of_ge s v hr] using h.symm⟩

/-- Everything PRN can do. -/
theorem exec_prn_cases {r : Byte} {s t : State} (h : exec (.prn r) s = .next t) :
    (∃ _ : r.toNat < 8, t = (emit s s.x[r.toNat]).withPc (s.pc + 2)) ∨
    (8 ≤ r.toNat ∧ t = abort { kind := .invalidRegister, detail := r.toNat } s) := by
  rcases Nat.lt_or_ge r.toNat 8 with hr | hr
  · exact .inl ⟨hr, by simpa [exec_prn_of_lt s hr] using h.symm⟩
  · exact .inr ⟨hr, by simpa [exec_prn_of_ge s hr] using h.symm⟩

/-- Everything ADD can do. -/
theorem exec_add_cases {a b : Byte} {s t : State} (h : exec (.add a b) s = .next t) :
    (∃ (_ : a.toNat < 8) (_ : b.toNat < 8), t = (s.withX (s.x.set a.toNat
      (BitVec.ofNat 8 (aluAdd s.x[a.toNat] s.x[b.toNat])))).withPc (s.pc + 3)) ∨
    (8 ≤ a.toNat ∧ t = abort { kind := .invalidRegister, detail := a.toNat } s) ∨
    (a.toNat < 8 ∧ 8 ≤ b.toNat ∧ t = abort { kind := .invalidRegister, detail := b.toNat } s) := by
  rcases Nat.lt_or_ge a.toNat 8 with ha | ha
  · rcases Nat.lt_or_ge b.toNat 8 with hb | hb
    · exact .inl ⟨ha, hb, by simpa [exec_add_of_lt s ha hb] using h.symm⟩
    · exact .inr (.inr ⟨ha, hb, by simpa [exec_add_of_right_ge s ha hb] using h.symm⟩)
  · exact .inr (.inl ⟨ha, by simpa [exec_add_of_left_ge s b ha] using h.symm⟩)

end Sys2Proof.Machine
end

section
/-! From the bytes at the pc to the moves of the RUNNING engine, said once. -/

namespace Sys2Proof

/-- How many operand bytes an instruction has (30_encoding.md R76, R79). -/
def Instr.operandBytes : Instr → Nat
  | .ldi _ _ => 2
  | .prn _ => 1
  | .hlt => 0
  | .add _ _ => 2

/-- A handler takes exactly the operand bytes of its instruction. -/
theorem length_of_handlerInstr {h : Handler} {ops : List Byte} {i : Instr} (hi : handlerInstr h ops = some i) :
    ops.length = i.operandBytes := by
  cases h with
  | ldi => match ops, hi with | [_, _], rfl => rfl
  | prn => match ops, hi with | [_], rfl => rfl
  | hlt => match ops, hi with | [], rfl => rfl
  | add => match ops, hi with | [_, _], rfl => rfl
  | unknown => cases hi

/-- Bytes whose handler gives an instruction decode to it. -/
theorem decode_of_handlerInstr {addOp : Option AddOpcode} {ir : Byte} {ops : List Byte} {i : Instr}
    (hlen : ops.length = operandCount ir) (hi : handlerInstr (dispatch addOp ir) ops = some i)
    (rest : List Byte) : decode addOp (ir :: (ops ++ rest)) = .instr i rest := by
  have hfits : ¬ (ops ++ rest).length < operandCount ir := by simp [hlen]
  rw [decode_cons, if_neg hfits, ← hlen, List.take_left, List.drop_left, hi]

end Sys2Proof

namespace Sys2Proof.Machine

@[simp] theorem operandsAtPc_length (s : State) : (operandsAtPc s).length = operandCount (opcodeAtPc s) := by
  simp [operandsAtPc]

/-- Where the operand bytes lie in memory, the bytes from the pc on begin with the opcode byte and them. -/
theorem bytesAtPc_eq_append {s : State} (hfit : s.pc + 1 + operandCount (opcodeAtPc s) ≤ 256) :
    ∃ rest, bytesAtPc s = opcodeAtPc s :: (operandsAtPc s ++ rest) := by
  obtain ⟨d, hd⟩ := Nat.exists_eq_add_of_le hfit
  have hn : 256 - s.pc = 1 + (operandCount (opcodeAtPc s) + d) := by omega
  refine ⟨(List.range d).map fun k => s.mem.read (s.pc + 1 + operandCount (opcodeAtPc s) + k), ?_⟩
  simp [bytesAtPc, operandsAtPc, opcodeAtPc, hn, List.range_add, Function.comp_def, Nat.add_assoc]

/-- Everything a step of the RUNNING engine can do: where it goes from `s` (41_engine.md R113, R114). -/
inductive EngineMove (s : State) : State → Prop where
  /-- The opcode byte or an operand byte lies past memory; the record names the first address that does. -/
  | fetchPastMemory : EngineMove s (abort { kind := .outOfBounds, detail := max s.pc 256 } s)
  /-- A register operand past 7. -/
  | badRegister (r : Byte) (hr : 8 ≤ r.toNat) :
      EngineMove s (abort { kind := .invalidRegister, detail := r.toNat } s)
  /-- An unknown opcode, its operand bytes in memory. -/
  | unknown (hfit : s.pc + 1 + operandCount (opcodeAtPc s) ≤ 256)
      (hdispatch : dispatch s.params.addOpcode (opcodeAtPc s) = .unknown) :
      EngineMove s (haltUnrecognized (opcodeAtPc s) s)
  /-- LDI or ADD. -/
  | registerWrite (r : Fin 8) (v : Byte) (hfit : s.pc + 3 ≤ 256) :
      EngineMove s ((s.withX (s.x.set r v)).withPc (s.pc + 3))
  /-- PRN, which is what the bytes at the pc decode to. -/
  | print (r : Byte) (v : Byte) (rest : List Byte) (hfit : s.pc + 2 ≤ 256)
      (hdecode : decode s.params.addOpcode (bytesAtPc s) = .instr (.prn r) rest) (hget : regGet s.x r = .ok v) :
      EngineMove s ((emit s v).withPc (s.pc + 2))
  /-- HLT, which is what the bytes at the pc decode to. -/
  | halt (rest : List Byte) (hfit : s.pc + 1 ≤ 256)
      (hdecode : decode s.params.addOpcode (bytesAtPc s) = .instr .hlt rest) :
      EngineMove s ((s.withState .halted).withPc (s.pc + 1))

/-- An instruction decoded from the bytes at the pc makes one of the engine's moves. -/
theorem engineMove_of_exec {s t : State} {i : Instr} {rest : List Byte}
    (hfit : s.pc + 1 + i.operandBytes ≤ 256)
    (hdecode : decode s.params.addOpcode (bytesAtPc s) = .instr i rest) (h : exec i s = .next t) :
    EngineMove s t := by
  cases i with
  | ldi r v =>
    obtain ⟨hr, rfl⟩ | ⟨hr, rfl⟩ := exec_ldi_cases h
    · exact .registerWrite ⟨r.toNat, hr⟩ v hfit
    · exact .badRegister r hr
  | prn r =>
    obtain ⟨hr, rfl⟩ | ⟨hr, rfl⟩ := exec_prn_cases h
    · exact .print r _ rest hfit hdecode (regGet_of_lt s.x hr)
    · exact .badRegister r hr
  | hlt =>
    rw [exec_hlt] at h
    cases h
    exact .halt rest hfit hdecode
  | add a b =>
    obtain ⟨ha, hb, rfl⟩ | ⟨ha, rfl⟩ | ⟨-, hb, rfl⟩ := exec_add_cases h
    · exact .registerWrite ⟨a.toNat, ha⟩ _ hfit
    · exact .badRegister a ha
    · exact .badRegister b hb

/-- The inversion of the engine's step. -/
theorem engineMove_of_engineStep {s t : State} (h : engineStep s = .next t) : EngineMove s t := by
  unfold engineStep at h
  rcases fetch_cases s with ⟨hpc, hf⟩ | ⟨hpc, -, hf⟩ | ⟨hfit, ⟨i, hi, hf⟩ | ⟨hnone, hf⟩⟩ <;> rw [hf] at h
  · cases h
    simpa [Nat.max_eq_left hpc] using EngineMove.fetchPastMemory (s := s)
  · cases h
    simpa [Nat.max_eq_right hpc.le] using EngineMove.fetchPastMemory (s := s)
  · obtain ⟨rest, hbytes⟩ := bytesAtPc_eq_append hfit
    have hlen := length_of_handlerInstr hi
    rw [operandsAtPc_length] at hlen
    refine engineMove_of_exec (rest := rest) (by rwa [hlen] at hfit) ?_ h
    rw [hbytes]
    exact decode_of_handlerInstr (operandsAtPc_length s) hi rest
  · cases h
    exact .unknown hfit ((handlerInstr_eq_none_iff _ _ _ (operandsAtPc_length s)).1 hnone)

/-- A turn of `run()` on a HALTED engine changes nothing. -/
theorem eq_of_haltedTurn {s t : State} (h : haltedTurn s = .next t) : t = s := by
  unfold haltedTurn at h
  split at h
  · cases h
    rfl
  · split at h
    · cases h
    · cases h
      rfl

/-- The inversion of the step: one case per engine state. -/
theorem step_cases {s t : State} (h : step s = .next t) :
    (s.state = .idle ∧ t = runEntry s) ∨ (s.state = .running ∧ EngineMove s t) ∨ (s.state = .halted ∧ t = s) := by
  unfold step at h
  cases hs : s.state <;> rw [hs] at h
  case idle => exact .inl ⟨rfl, by cases h; rfl⟩
  case running => exact .inr (.inl ⟨rfl, engineMove_of_engineStep h⟩)
  case halted => exact .inr (.inr ⟨rfl, eq_of_haltedTurn h⟩)

@[simp] theorem running_iff (s : State) : s.running = true ↔ s.state = .running := by simp [State.running]

/-- What every move of the RUNNING engine keeps, the loop of `run()` keeps. -/
theorem runLoop_induction {P : State → Prop}
    (hmove : ∀ {s t : State}, s.state = .running → EngineMove s t → P s → P t) (n : Nat) {s : State} (hs : P s) :
    P (runLoop n s) := by
  induction n generalizing s with
  | zero => exact hs
  | succ n ih =>
    unfold runLoop
    split
    · rename_i hrun
      obtain ⟨t, ht⟩ := engineStep_next s
      rw [ht]
      exact ih (hmove ((running_iff s).1 hrun) (engineMove_of_engineStep ht) hs)
    · exact hs

end Sys2Proof.Machine
end

section
/-! The state invariant (10_state.md R40): at reset, along every move of the engine, and through the host's requests. -/

namespace Sys2Proof.Machine

/-- The invariant of a HALTED state, where IDLE's and the latch's clauses hold of themselves. -/
theorem State.Inv.of_halted {t : State} (hstate : t.state = .halted) (hpc : t.pc ≤ 256) (hmem : t.mem.wf)
    (hlatch : ∀ r, t.fault = some r → r.consistent) : t.Inv where
  pcLe := hpc
  memWf := hmem
  idleClean hidle := by simp [hstate] at hidle
  faultHalted _ := hstate
  latchConsistent := hlatch

/-- The invariant of a RUNNING state, whose latch is empty. -/
theorem State.Inv.of_running {t : State} (hstate : t.state = .running) (hpc : t.pc ≤ 256) (hmem : t.mem.wf)
    (hlatch : t.fault = none) : t.Inv where
  pcLe := hpc
  memWf := hmem
  idleClean hidle := by simp [hstate] at hidle
  faultHalted hfault := absurd hlatch hfault
  latchConsistent r hr := by simp [hlatch] at hr

/-- Only a HALTED engine has a latched fault. -/
theorem State.Inv.fault_eq_none {s : State} (hs : s.Inv) (h : s.state ≠ .halted) : s.fault = none :=
  not_not.1 (mt hs.faultHalted h)

theorem State.Inv.resetWith (p : Params) : (State.resetWith p).Inv where
  pcLe := Nat.zero_le _
  memWf := Memory.wf_nil
  idleClean _ := ⟨rfl, rfl⟩
  faultHalted h := absurd rfl h
  latchConsistent _ h := by cases h

/-- The pc after an unknown opcode is `pc0` or past the instruction, whatever the parameter (41_engine.md R111). -/
theorem haltUnrecognized_pc_le {ir : Byte} {s : State} (hfit : s.pc + 1 + operandCount ir ≤ 256) :
    (haltUnrecognized ir s).pc ≤ 256 := by
  simp only [haltUnrecognized, State.withPc_pc]
  cases s.params.pcAfterUnrecognized with
  | hold => show s.pc ≤ 256; omega
  | advance =>
    cases setsPc ir with
    | false => exact hfit
    | true => show s.pc ≤ 256; omega

theorem State.Inv.runEntry {s : State} (hs : s.Inv) (h : s.state = .idle) : (runEntry s).Inv :=
  .of_running rfl hs.pcLe hs.memWf (hs.idleClean h).1

theorem State.Inv.abort {s : State} (hs : s.Inv) (e : ErrorInfo) : (abort e s).Inv :=
  .of_halted rfl hs.pcLe hs.memWf fun r hr => by cases hr; exact ⟨rfl, rfl⟩

/-- Every move of the RUNNING engine keeps the invariant. -/
theorem State.Inv.engineMove {s t : State} (hs : s.Inv) (hrun : s.state = .running) (h : EngineMove s t) :
    t.Inv := by
  have hfault : s.fault = none := hs.fault_eq_none (by simp [hrun])
  cases h with
  | fetchPastMemory => exact hs.abort _
  | badRegister r hr => exact hs.abort _
  | unknown hfit hdispatch =>
    exact .of_halted rfl (haltUnrecognized_pc_le hfit) hs.memWf fun r hr => by cases hr; exact ⟨rfl, rfl⟩
  | registerWrite r v hfit => exact .of_running hrun hfit hs.memWf hfault
  | print r v rest hfit => exact .of_running hrun hfit hs.memWf hfault
  | halt rest hfit => exact .of_halted rfl hfit hs.memWf hs.latchConsistent

theorem State.Inv.withMem {s : State} (hs : s.Inv) {m : Memory} (hm : m.wf) : (s.withMem m).Inv where
  pcLe := hs.pcLe
  memWf := hm
  idleClean := hs.idleClean
  faultHalted := hs.faultHalted
  latchConsistent := hs.latchConsistent

theorem State.Inv.hostReset {s t : State} (h : s.hostReset = some t) : t.Inv := by
  unfold State.hostReset at h
  split at h
  · cases h
    exact .resetWith _
  · cases h
    exact .resetWith _
  · cases h

theorem State.Inv.hostLoad {s t : State} (hs : s.Inv) {image : List Nat} {reply : LoadReply}
    (h : s.hostLoad image = some (t, reply)) : t.Inv := by
  unfold State.hostLoad at h
  split at h
  · split at h
    · cases h
      exact hs
    · cases h
      exact hs.withMem (loadFrom_wf hs.memWf 0 image)
  · cases h
  · cases h

theorem State.Inv.hostRun {s t : State} (hs : s.Inv) {result : RunResult}
    (h : s.hostRun = some (t, result)) : t.Inv := by
  unfold State.hostRun at h
  split at h
  · rename_i hidle
    cases h
    exact runLoop_induction (fun hrun hmove hinv => hinv.engineMove hrun hmove) _ (hs.runEntry hidle)
  · cases h
    exact hs
  · cases h

end Sys2Proof.Machine

open Sys2Proof Sys2Proof.Machine

/-- Settles O11: the invariant is kept along each case of the step's inversion. -/
theorem stepKeepsTheInvariant : Obligations.StepKeepsTheInvariant := by
  intro s t hs h
  obtain ⟨hidle, rfl⟩ | ⟨hrun, hmove⟩ | ⟨-, rfl⟩ := step_cases h
  · exact hs.runEntry hidle
  · exact hs.engineMove hrun hmove
  · exact hs

/-- Settles O12, request by request. -/
theorem hostRequestsKeepTheInvariant : Obligations.HostRequestsKeepTheInvariant :=
  fun _ hs => ⟨fun _ => .hostReset, fun _ _ _ => hs.hostLoad, fun _ _ => hs.hostRun⟩

/-- Settles O9: each field of the reset state is the one that `State.resetWith` writes. -/
theorem resetValues : Obligations.ResetValues :=
  ⟨fun _ => ⟨Memory.read_nil, rfl, rfl, rfl, rfl, rfl, rfl⟩, rfl⟩

/-- Settles O10: `State.reset` is the reset state for the default parameters. -/
theorem resetMeetsTheInvariant : Obligations.ResetMeetsTheInvariant := ⟨.resetWith defaultParams, .resetWith⟩

end

section
/-! The canonical form of memory has one value per contents: the lowest cells of two such memories agree, and so on
along the lists. -/

namespace Sys2Proof.Machine

/-- The lowest cell of a memory in canonical form holds a byte that is not 0, so a memory with the same bytes does not
lie wholly above it. -/
theorem Memory.not_above_of_read_eq {k : Nat} {b : Byte} {t m : Memory} (hwf : Memory.wf ((k, b) :: t))
    (heq : ∀ a, a < 256 → Memory.read ((k, b) :: t) a = m.read a) : ¬ ∀ c ∈ m, k < c.1 := by
  intro habove
  obtain ⟨-, hb, hk, -⟩ := (Memory.wf_cons_iff k b t).1 hwf
  have hread := heq k hk
  rw [Memory.read_cell, if_pos rfl, Memory.read_below habove] at hread
  exact hb hread

/-- The lowest cell of one memory is not below the lowest cell of another that holds the same bytes. -/
theorem Memory.head_le_of_read_eq {k k' : Nat} {b b' : Byte} {t t' : Memory} (hwf : Memory.wf ((k, b) :: t))
    (hwf' : Memory.wf ((k', b') :: t'))
    (heq : ∀ a, a < 256 → Memory.read ((k, b) :: t) a = Memory.read ((k', b') :: t') a) : k' ≤ k := by
  by_contra hlt
  rw [Nat.not_le] at hlt
  obtain ⟨habove, -⟩ := (Memory.wf_cons_iff k' b' t').1 hwf'
  refine Memory.not_above_of_read_eq hwf heq fun c hc => ?_
  rcases List.mem_cons.1 hc with rfl | hc
  · exact hlt
  · exact hlt.trans (habove c hc)

end Sys2Proof.Machine

open Sys2Proof Sys2Proof.Machine

/-- Settles O15, by induction on the first memory. -/
theorem canonicalMemoriesWithEqualBytesAreEqual : Obligations.CanonicalMemoriesWithEqualBytesAreEqual := by
  intro m
  induction m with
  | nil =>
    rintro (_ | ⟨⟨k, b⟩, t⟩) - hwf heq
    · rfl
    · exact absurd (by simp) (Memory.not_above_of_read_eq (m := []) hwf fun a ha => (heq a ha).symm)
  | cons c t ih =>
    obtain ⟨k, b⟩ := c
    rintro (_ | ⟨⟨k', b'⟩, t'⟩) hwf hwf' heq
    · exact absurd (by simp) (Memory.not_above_of_read_eq hwf heq)
    · obtain rfl : k = k' := le_antisymm
        (Memory.head_le_of_read_eq hwf' hwf fun a ha => (heq a ha).symm) (Memory.head_le_of_read_eq hwf hwf' heq)
      obtain ⟨habove, -, hk, ht⟩ := (Memory.wf_cons_iff k b t).1 hwf
      obtain ⟨habove', -, -, ht'⟩ := (Memory.wf_cons_iff k b' t').1 hwf'
      have hb : b = b' := by simpa [Memory.read_cell] using heq k hk
      have htail : t = t' := by
        refine ih t' ht ht' fun a ha => ?_
        by_cases hak : a = k
        · rw [hak, Memory.read_below habove, Memory.read_below habove']
        · simpa [Memory.read_cell, hak] using heq a ha
      rw [hb, htail]

end

section
/-! What registers, latch and output keep: the frame of LDI and ADD, the latch, the output channel, the register
ports. -/

open Sys2Proof Sys2Proof.Machine

/-- Settles O16, port by port. -/
theorem registerPortContract : Obligations.RegisterPortContract :=
  fun x _ v => ⟨regGet_of_lt x, regGet_of_ge x, fun h _ => regSet_of_ge x v h, regSet_of_value_gt x,
    fun h hv => ⟨_, regSet_of_lt x h hv, getElem_set_register x h _⟩⟩

/-- Settles O24: each of LDI and ADD writes its destination or aborts. -/
theorem registerWritersFrame : Obligations.RegisterWritersFrame := by
  intro a b s t
  have hother (h : a.toNat < 8) (v : Byte) (j : Fin 8) (hj : j.val ≠ a.toNat) : (s.x.set a.toNat v)[j] = s.x[j] := by
    rw [getElem_set_register s.x h, if_neg hj]
  refine ⟨fun hexec => ?_, fun hexec => ?_⟩
  · obtain ⟨ha, rfl⟩ | ⟨ha, rfl⟩ := exec_ldi_cases hexec
    · exact ⟨hother ha _, rfl, rfl, fun _ => rfl, fun _ => ⟨rfl, rfl⟩, fun hge => by omega⟩
    · exact ⟨fun _ _ => rfl, rfl, rfl, fun _ => rfl, fun hlt => by omega, fun _ => ⟨rfl, rfl⟩⟩
  · obtain ⟨ha, hb, rfl⟩ | ⟨ha, rfl⟩ | ⟨-, hb, rfl⟩ := exec_add_cases hexec
    · exact ⟨hother ha _, rfl, rfl, fun _ => rfl, fun _ _ => ⟨rfl, rfl⟩, fun hge => by omega⟩
    · exact ⟨fun _ _ => rfl, rfl, rfl, fun _ => rfl, fun hlt _ => by omega, fun _ => ⟨rfl, rfl⟩⟩
    · exact ⟨fun _ _ => rfl, rfl, rfl, fun _ => rfl, fun _ hlt => by omega, fun _ => ⟨rfl, rfl⟩⟩

namespace Sys2Proof.Machine

/-- A move of the engine leaves the latch alone or halts the engine. -/
theorem EngineMove.fault_eq_or_halted {s t : State} (h : EngineMove s t) :
    t.fault = s.fault ∨ t.state = .halted := by
  cases h with
  | fetchPastMemory => exact .inr rfl
  | badRegister r hr => exact .inr rfl
  | unknown hfit hdispatch => exact .inr rfl
  | registerWrite r v hfit => exact .inl rfl
  | print r v rest hfit => exact .inl rfl
  | halt rest hfit => exact .inl rfl

/-- A move of the engine leaves the output channel alone or is PRN. -/
theorem EngineMove.out_eq_or_print {s t : State} (h : EngineMove s t) :
    t.out = s.out ∨ ∃ r rest v, decode s.params.addOpcode (bytesAtPc s) = .instr (.prn r) rest ∧
      regGet s.x r = .ok v ∧ t.out = s.out ++ [v] := by
  cases h with
  | fetchPastMemory => exact .inl rfl
  | badRegister r hr => exact .inl rfl
  | unknown hfit hdispatch => exact .inl rfl
  | registerWrite r v hfit => exact .inl rfl
  | print r v rest hfit hdecode hget => exact .inr ⟨r, rest, v, hdecode, hget, rfl⟩
  | halt rest hfit => exact .inl rfl

/-- No move of the engine removes or reorders output. -/
theorem EngineMove.out_prefix {s t : State} (h : EngineMove s t) : s.out <+: t.out := by
  obtain hout | ⟨r, rest, v, -, -, hout⟩ := h.out_eq_or_print
  · rw [hout]
  · rw [hout]
    exact List.prefix_append _ _

end Sys2Proof.Machine

/-- Settles O38: a latch that is set belongs to a HALTED engine, which a step leaves as it is. -/
theorem latchIsWrittenOnceAndHalts : Obligations.LatchIsWrittenOnceAndHalts := by
  intro s t hs h
  obtain ⟨-, rfl⟩ | ⟨hrun, hmove⟩ | ⟨-, rfl⟩ := step_cases h
  · exact ⟨fun _ => rfl, fun hne => absurd rfl hne⟩
  · have hempty : s.fault = none := hs.fault_eq_none (by simp [hrun])
    exact ⟨fun hset => absurd hempty hset, fun hne => ⟨hrun, hmove.fault_eq_or_halted.resolve_left hne⟩⟩
  · exact ⟨fun _ => rfl, fun hne => absurd rfl hne⟩

/-- Settles O50: the step's output by its inversion, the run's by induction along the loop. -/
theorem outputGrowsOnlyByPrn : Obligations.OutputGrowsOnlyByPrn := by
  refine ⟨fun s t h => ?_, fun n s => ?_⟩
  · obtain ⟨-, rfl⟩ | ⟨hrun, hmove⟩ | ⟨-, rfl⟩ := step_cases h
    · exact .inl rfl
    · exact hmove.out_eq_or_print.imp_right fun ⟨r, rest, v, hprn⟩ => ⟨r, rest, v, hrun, hprn⟩
    · exact .inl rfl
  · exact runLoop_induction (P := fun t => s.out <+: t.out)
      (fun _ hmove hprefix => hprefix.trans hmove.out_prefix) n (List.prefix_refl _)

end

section
/-! The memory port, one equation per case of its checks, and memory as the loader leaves it. -/

namespace Sys2Proof.Machine

/-! ### The port -/

theorem memRead_of_lt (m : Memory) {a : Nat} (h : a < 256) : memRead m a = .ok (m.read a) :=
  if_neg (Nat.not_le.2 h)

theorem memRead_of_ge (m : Memory) {a : Nat} (h : 256 ≤ a) :
    memRead m a = .error { kind := .outOfBounds, detail := a } := if_pos h

theorem memWrite_of_ge (m : Memory) {a : Nat} (v : Nat) (h : 256 ≤ a) :
    memWrite m a v = .error { kind := .outOfBounds, detail := a } := if_pos h

theorem memWrite_of_value_gt (m : Memory) {a v : Nat} (h : a < 256) (hv : 255 < v) :
    memWrite m a v = .error { kind := .invalidValue, detail := v } := by
  simp [memWrite, Nat.not_le.2 h, hv]

theorem memWrite_of_lt (m : Memory) {a v : Nat} (h : a < 256) (hv : v ≤ 255) :
    memWrite m a v = .ok (m.write a (BitVec.ofNat 8 v)) := by
  simp [memWrite, Nat.not_le.2 h, Nat.not_lt.2 hv]

/-! ### A row of bytes -/

/-- A row of bytes changes no cell below it or above it. -/
theorem Memory.read_writeAll_outside {m : Memory} (hm : m.wf) {a : Nat} {bs : List Byte} (hfit : a + bs.length ≤ 256)
    {k : Nat} (hk : k < a ∨ a + bs.length ≤ k) : (m.writeAll a bs).read k = m.read k := by
  induction bs generalizing m a with
  | nil => rfl
  | cons b bs ih =>
    simp only [List.length_cons] at hfit hk
    calc ((m.write a b).writeAll (a + 1) bs).read k
        = (m.write a b).read k := ih (Memory.write_wf hm (by omega) b) (by omega) (by omega)
      _ = m.read k := by rw [Memory.read_write hm, if_neg (by omega)]

/-- Each cell under a row of bytes holds its byte. -/
theorem Memory.read_writeAll_inside {m : Memory} (hm : m.wf) {a : Nat} {bs : List Byte} (hfit : a + bs.length ≤ 256)
    {k : Nat} (hk : k < bs.length) : (m.writeAll a bs).read (a + k) = bs[k] := by
  induction bs generalizing m a k with
  | nil => cases hk
  | cons b bs ih =>
    simp only [List.length_cons] at hfit hk
    have hwf : (m.write a b).wf := Memory.write_wf hm (by omega) b
    cases k with
    | zero =>
      calc ((m.write a b).writeAll (a + 1) bs).read a
          = (m.write a b).read a := Memory.read_writeAll_outside hwf (by omega) (by omega)
        _ = b := by rw [Memory.read_write hm, if_pos rfl]
    | succ k =>
      rw [← Nat.add_assoc, Nat.add_right_comm]
      exact ih hwf (by omega) (Nat.lt_of_succ_lt_succ hk)

/-! ### The loader -/

/-- Memory with an image's numbers written from address 0, each as a byte. -/
def Memory.withImage (m : Memory) (image : List Nat) : Memory := m.writeAll 0 (image.map (BitVec.ofNat 8))

theorem Memory.withImage_wf {m : Memory} (hm : m.wf) {image : List Nat} (hfit : image.length ≤ 256) :
    (m.withImage image).wf := Memory.writeAll_wf hm _ (by simpa using hfit)

theorem Memory.read_withImage_of_lt {m : Memory} (hm : m.wf) {image : List Nat} (hfit : image.length ≤ 256) {k : Nat}
    (hk : k < image.length) : (m.withImage image).read k = BitVec.ofNat 8 image[k] := by
  have hread := Memory.read_writeAll_inside hm (a := 0) (bs := image.map (BitVec.ofNat 8)) (by simpa using hfit)
    (by simpa using hk)
  rw [Nat.zero_add] at hread
  exact hread.trans (List.getElem_map _)

theorem Memory.read_withImage_of_ge {m : Memory} (hm : m.wf) {image : List Nat} (hfit : image.length ≤ 256) {a : Nat}
    (ha : image.length ≤ a) : (m.withImage image).read a = m.read a :=
  Memory.read_writeAll_outside hm (by simpa using hfit) (.inr (by simpa using ha))

/-- The loader writes the bytes in front of an image and goes on behind them (20_memory.md R50). -/
theorem loadFrom_append (m : Memory) {a : Nat} {pre : List Nat} (rest : List Nat) (hfit : a + pre.length ≤ 256)
    (hbyte : ∀ w ∈ pre, w ≤ 255) :
    loadFrom m a (pre ++ rest) = loadFrom (m.writeAll a (pre.map (BitVec.ofNat 8))) (a + pre.length) rest := by
  induction pre generalizing m a with
  | nil => rfl
  | cons w pre ih =>
    simp only [List.length_cons, List.forall_mem_cons] at hfit hbyte
    obtain ⟨hw, hpre⟩ := hbyte
    have hstep : loadFrom m a (w :: (pre ++ rest)) =
        loadFrom (m.write a (BitVec.ofNat 8 w)) (a + 1) (pre ++ rest) := by
      rw [loadFrom, memWrite_of_lt m (by omega) hw]
    rw [List.cons_append, hstep, ih _ (by omega) hpre, Nat.add_right_comm]
    rfl

/-- The loader takes an image of bytes whole. -/
theorem loadFrom_of_bytes (m : Memory) {image : List Nat} (hfit : image.length ≤ 256)
    (hbyte : ∀ w ∈ image, w ≤ 255) : loadFrom m 0 image = (m.withImage image, .ok) := by
  simpa [loadFrom, Memory.withImage] using loadFrom_append m (a := 0) [] (by omega) hbyte

/-- The loader stops at the first number that is no byte (20_memory.md R47). -/
theorem loadFrom_of_value_gt (m : Memory) {pre : List Nat} (post : List Nat) {v : Nat} (hfit : pre.length < 256)
    (hbyte : ∀ w ∈ pre, w ≤ 255) (hv : 255 < v) :
    loadFrom m 0 (pre ++ v :: post) = (m.withImage pre, .error { kind := .invalidValue, detail := v }) := by
  rw [loadFrom_append m (v :: post) (by omega) hbyte, loadFrom, memWrite_of_value_gt _ (by omega) hv]
  rfl

/-- `load` of an image that fits, in IDLE: the loader's memory and its reply. -/
theorem State.hostLoad_of_fits {s : State} {image : List Nat} (hidle : s.state = .idle)
    (hfit : image.length ≤ 256) :
    s.hostLoad image = some (s.withMem (loadFrom s.mem 0 image).1, (loadFrom s.mem 0 image).2) := by
  simp [State.hostLoad, hidle, Nat.not_lt.2 hfit]

theorem State.hostLoad_of_too_long {s : State} {image : List Nat} (hidle : s.state = .idle)
    (hlong : 256 < image.length) :
    s.hostLoad image = some (s, .error { kind := .outOfBounds, detail := 256 }) := by
  simp [State.hostLoad, hidle, hlong]

theorem State.hostLoad_of_not_idle {s : State} (image : List Nat) (h : s.state ≠ .idle) :
    s.hostLoad image = none := by
  cases hs : s.state with
  | idle => exact absurd hs h
  | running => simp [State.hostLoad, hs]
  | halted => simp [State.hostLoad, hs]

/-! ### The engine -/

/-- No move of the engine writes memory or the parameters. -/
theorem EngineMove.mem_params_eq {s t : State} (h : EngineMove s t) : t.mem = s.mem ∧ t.params = s.params := by
  cases h with
  | fetchPastMemory => exact ⟨rfl, rfl⟩
  | badRegister r hr => exact ⟨rfl, rfl⟩
  | unknown hfit hdispatch => exact ⟨rfl, rfl⟩
  | registerWrite r v hfit => exact ⟨rfl, rfl⟩
  | print r v rest hfit => exact ⟨rfl, rfl⟩
  | halt rest hfit => exact ⟨rfl, rfl⟩

/-- No step writes memory or the parameters, in any engine state. -/
theorem step_mem_params_eq {s t : State} (h : step s = .next t) : t.mem = s.mem ∧ t.params = s.params := by
  obtain ⟨-, rfl⟩ | ⟨-, hmove⟩ | ⟨-, rfl⟩ := step_cases h
  · exact ⟨rfl, rfl⟩
  · exact hmove.mem_params_eq
  · exact ⟨rfl, rfl⟩

end Sys2Proof.Machine

open Sys2Proof Sys2Proof.Machine

/-- Settles O13, access by access and check by check. -/
theorem memoryPortContract : Obligations.MemoryPortContract :=
  fun m _ v hm => ⟨memRead_of_lt m, memRead_of_ge m, fun ha _ => memWrite_of_ge m v ha, memWrite_of_value_gt m,
    fun ha hv => ⟨_, memWrite_of_lt m ha hv, Memory.write_wf hm ha _, Memory.read_write hm _ _⟩⟩

/-- Settles O14: both ports answer the address or index error whatever the value. -/
theorem writePortsCheckTheAddressFirst : Obligations.WritePortsCheckTheAddressFirst :=
  ⟨fun m _ v ha _ => memWrite_of_ge m v ha, fun x _ v hi _ => regSet_of_ge x v hi⟩

/-- Settles O49: the step's memory by its inversion, the run's by induction along the loop. -/
theorem memoryIsConstantDuringARun : Obligations.MemoryIsConstantDuringARun := by
  refine ⟨fun s t h => ?_, fun n s => ?_⟩
  · obtain ⟨hmem, hparams⟩ := step_mem_params_eq h
    exact ⟨fun a => by rw [hmem], hmem, hparams⟩
  · refine runLoop_induction (P := fun t => t.mem = s.mem ∧ t.params = s.params) ?_ n ⟨rfl, rfl⟩
    intro t u _ hmove ⟨hmem, hparams⟩
    obtain ⟨hmem', hparams'⟩ := hmove.mem_params_eq
    exact ⟨hmem'.trans hmem, hparams'.trans hparams⟩

/-- Settles O53: the memory after an accepted `load` is the old one with the image written. -/
theorem loadWritesTheImage : Obligations.LoadWritesTheImage := by
  intro s image hwf
  refine ⟨fun hidle hfit hbyte => ⟨s.withMem (s.mem.withImage image), ?_, rfl, ?_⟩,
    State.hostLoad_of_too_long, State.hostLoad_of_not_idle image⟩
  · rw [State.hostLoad_of_fits hidle hfit, loadFrom_of_bytes s.mem hfit hbyte]
  · exact ⟨Memory.withImage_wf hwf hfit, fun _ => Memory.read_withImage_of_lt hwf hfit,
      fun _ => Memory.read_withImage_of_ge hwf hfit⟩

/-- Settles O54: the memory after the failed `load` is the old one with the bytes before `v` written. -/
theorem loadStopsAtAValueThatIsNoByte : Obligations.LoadStopsAtAValueThatIsNoByte := by
  intro s pre post v hwf hidle hfit hbyte hv
  have hpre : pre.length < 256 := by
    simp only [List.length_append, List.length_cons] at hfit
    omega
  refine ⟨s.withMem (s.mem.withImage pre), ?_, rfl, fun _ => Memory.read_withImage_of_lt hwf hpre.le,
    fun _ => Memory.read_withImage_of_ge hwf hpre.le⟩
  rw [State.hostLoad_of_fits hidle hfit, loadFrom_of_value_gt s.mem post hpre hbyte hv]

end

section
/-! Decoder and encoder as inverses: the fields as numbers, which bytes are known, and that the handler of a byte
gives an instruction exactly when the byte and its operands are that instruction's encoding. -/

namespace Sys2Proof

/-! ### The fields of the opcode byte -/

/-- Bits 7 to 6 as a quotient (30_encoding.md R67). -/
theorem operandCount_eq_div (ir : Byte) : operandCount ir = ir.toNat / 64 := by
  have hir := ir.isLt
  rw [operandCount, BitVec.extractLsb'_toNat, Nat.shiftRight_eq_div_pow]
  omega

/-- Bit 4 as the parity of a quotient (30_encoding.md R68). -/
theorem setsPc_iff (ir : Byte) : setsPc ir = true ↔ ir.toNat / 16 % 2 = 1 := by
  rw [setsPc, beq_iff_eq, ← BitVec.toNat_inj, BitVec.extractLsb'_toNat, Nat.shiftRight_eq_div_pow]
  rfl

/-! ### The known bytes -/

/-- A byte is UNKNOWN when it has no entry in the dispatch table (41_engine.md R106). -/
theorem dispatch_eq_unknown_iff (addOp : Option AddOpcode) (ir : Byte) :
    dispatch addOp ir = .unknown ↔
      ir ≠ 0x82#8 ∧ ir ≠ 0x47#8 ∧ ir ≠ 0x01#8 ∧ ∀ c, addOp = some c → ir ≠ c.byte := by
  constructor
  · intro hu
    refine ⟨?_, ?_, ?_, ?_⟩
    · rintro rfl; cases hu
    · rintro rfl; cases hu
    · rintro rfl; cases hu
    · rintro c rfl rfl; rw [dispatch_add] at hu; cases hu
  · rintro ⟨hldi, hprn, hhlt, hadd⟩
    have hnoAdd : addOp.map AddOpcode.byte ≠ some ir := fun h => by
      obtain ⟨c, hc, rfl⟩ := Option.map_eq_some_iff.1 h
      exact hadd c hc rfl
    rw [dispatch, if_neg hldi, if_neg hprn, if_neg hhlt, if_neg hnoAdd]

/-- The four ways a byte can be known. -/
theorem known_byte_cases {addOp : Option AddOpcode} {ir : Byte} (h : dispatch addOp ir ≠ .unknown) :
    ir = 0x82#8 ∨ ir = 0x47#8 ∨ ir = 0x01#8 ∨ ∃ c, addOp = some c ∧ ir = c.byte := by
  by_contra hnone
  push Not at hnone
  exact h ((dispatch_eq_unknown_iff addOp ir).2 hnone)

/-- No known byte has sets_pc 1 or three operands (30_encoding.md R76, R79). -/
theorem known_byte_fields {addOp : Option AddOpcode} {ir : Byte} (h : dispatch addOp ir ≠ .unknown) :
    setsPc ir = false ∧ operandCount ir ≠ 3 := by
  obtain rfl | rfl | rfl | ⟨c, -, rfl⟩ := known_byte_cases h
  · decide
  · decide
  · decide
  · obtain ⟨hcount, hpc⟩ := c.fields
    exact ⟨hpc, by simp [hcount]⟩

/-! ### The encoder inverts the dispatch table -/

/-- The encoding of an instruction is an opcode byte and operand bytes whose handler gives the instruction back. -/
theorem handlerInstr_of_encode {addOp : Option AddOpcode} {i : Instr} {ir : Byte} {ops : List Byte}
    (h : encode addOp i = some (ir :: ops)) : handlerInstr (dispatch addOp ir) ops = some i := by
  cases i with
  | ldi r v => cases h; rfl
  | prn r => cases h; rfl
  | hlt => cases h; rfl
  | add a b =>
    cases addOp with
    | none => cases h
    | some c =>
      cases h
      rw [dispatch_add]
      rfl

/-- The instruction a handler gives is encoded as the bytes it was called for. -/
theorem encode_of_handlerInstr {addOp : Option AddOpcode} {i : Instr} {ir : Byte} {ops : List Byte}
    (h : handlerInstr (dispatch addOp ir) ops = some i) : encode addOp i = some (ir :: ops) := by
  have hknown : dispatch addOp ir ≠ .unknown := fun hu => by rw [hu] at h; cases h
  obtain rfl | rfl | rfl | ⟨c, rfl, rfl⟩ := known_byte_cases hknown
  · match ops, h with | [_, _], rfl => rfl
  · match ops, h with | [_], rfl => rfl
  · match ops, h with | [], rfl => rfl
  · rw [dispatch_add] at h
    match ops, h with | [_, _], rfl => rfl

/-- An encoding has as many operand bytes as its opcode byte says (30_encoding.md R72). -/
theorem operands_length_of_encode {addOp : Option AddOpcode} {i : Instr} {ir : Byte} {ops : List Byte}
    (h : encode addOp i = some (ir :: ops)) : ops.length = operandCount ir := by
  have hlen : (ir :: ops).length = instrLength ir := by
    cases i with
    | ldi r v => exact (Laws.EncodedLength.ldi r v addOp ir ops h).1
    | prn r => exact (Laws.EncodedLength.prn r addOp ir ops h).1
    | hlt => exact (Laws.EncodedLength.hlt addOp ir ops h).1
    | add a b => exact (Laws.EncodedLength.add a b addOp ir ops h).1
  rw [List.length_cons, instrLength] at hlen
  omega

/-- Exactly the well-formed instructions have an encoding, which begins with an opcode byte. -/
theorem wellFormed_iff_encode (addOp : Option AddOpcode) (i : Instr) :
    i.wellFormed addOp = true ↔ ∃ ir ops, encode addOp i = some (ir :: ops) := by
  cases i with
  | ldi r v => exact iff_of_true rfl ⟨_, _, rfl⟩
  | prn r => exact iff_of_true rfl ⟨_, _, rfl⟩
  | hlt => exact iff_of_true rfl ⟨_, _, rfl⟩
  | add a b =>
    cases addOp with
    | none => exact iff_of_false Bool.false_ne_true (by rintro ⟨_, _, h⟩; cases h)
    | some c => exact iff_of_true rfl ⟨_, _, rfl⟩

/-! ### Decoding -/

/-- An encoding decodes to its instruction, whatever follows it. -/
theorem decode_of_encode {addOp : Option AddOpcode} {i : Instr} {ir : Byte} {ops : List Byte}
    (h : encode addOp i = some (ir :: ops)) (rest : List Byte) : decode addOp (ir :: (ops ++ rest)) = .instr i rest :=
  decode_of_handlerInstr (operands_length_of_encode h) (handlerInstr_of_encode h) rest

/-- An UNKNOWN byte takes its operand bytes all the same (30_encoding.md R82). -/
theorem decode_of_unknown {addOp : Option AddOpcode} {ir : Byte} {ops : List Byte}
    (hlen : ops.length = operandCount ir) (hu : dispatch addOp ir = .unknown) (rest : List Byte) :
    decode addOp (ir :: (ops ++ rest)) = .unknown ir ops rest := by
  have hfits : ¬ (ops ++ rest).length < operandCount ir := by simp [hlen]
  rw [decode_cons, if_neg hfits, ← hlen, List.take_left, List.drop_left, hu]
  rfl

/-- Everything decoding can answer once there is an opcode byte: it is truncated, or it takes the operand bytes of an
unknown opcode, or those of an instruction that has these bytes as its encoding. -/
theorem decode_cons_cases (addOp : Option AddOpcode) (ir : Byte) (rest : List Byte) :
    (rest.length < operandCount ir ∧ decode addOp (ir :: rest) = .truncated ir) ∨
    ∃ ops tail, rest = ops ++ tail ∧ ops.length = operandCount ir ∧
      (decode addOp (ir :: rest) = .unknown ir ops tail ∨
       ∃ i, encode addOp i = some (ir :: ops) ∧ decode addOp (ir :: rest) = .instr i tail) := by
  rcases lt_or_ge rest.length (operandCount ir) with hshort | hfits
  · exact .inl ⟨hshort, by rw [decode_cons, if_pos hshort]⟩
  · obtain ⟨ops, tail, rfl, hlen⟩ : ∃ ops tail, rest = ops ++ tail ∧ ops.length = operandCount ir :=
      ⟨_, _, (List.take_append_drop (operandCount ir) rest).symm, List.length_take_of_le hfits⟩
    refine .inr ⟨ops, tail, rfl, hlen, ?_⟩
    cases hi : handlerInstr (dispatch addOp ir) ops with
    | none => exact .inl (decode_of_unknown hlen ((handlerInstr_eq_none_iff addOp ir ops hlen).1 hi) tail)
    | some i => exact .inr ⟨i, encode_of_handlerInstr hi, decode_of_handlerInstr hlen hi tail⟩

/-- Bytes that decode to an instruction are its encoding and what follows. -/
theorem encode_of_decode {addOp : Option AddOpcode} {bs : List Byte} {i : Instr} {rest : List Byte}
    (h : decode addOp bs = .instr i rest) :
    ∃ ir ops, encode addOp i = some (ir :: ops) ∧ bs = ir :: (ops ++ rest) := by
  cases bs with
  | nil => cases h
  | cons ir bs =>
    obtain ⟨-, hd⟩ | ⟨ops, tail, rfl, -, hd | ⟨j, hj, hd⟩⟩ := decode_cons_cases addOp ir bs
    · cases hd.symm.trans h
    · cases hd.symm.trans h
    · cases hd.symm.trans h
      exact ⟨ir, ops, hj, rfl⟩

/-- Decoding is truncated when an operand byte is missing (41_engine.md R105). -/
theorem decode_eq_truncated_iff (addOp : Option AddOpcode) (ir : Byte) (rest : List Byte) (b : Byte) :
    decode addOp (ir :: rest) = .truncated b ↔ b = ir ∧ rest.length < operandCount ir := by
  obtain ⟨hshort, hd⟩ | ⟨ops, tail, rfl, hlen, hd | ⟨i, -, hd⟩⟩ := decode_cons_cases addOp ir rest
  · rw [hd, DecodeResult.truncated.injEq]
    exact ⟨fun h => ⟨h.symm, hshort⟩, fun h => h.1.symm⟩
  · simp [hd, hlen]
  · simp [hd, hlen]

/-- Bytes that decode to an unknown opcode are that byte with its operand bytes, and what follows. -/
theorem eq_of_decode_unknown {addOp : Option AddOpcode} {ir b : Byte} {rest ops tail : List Byte}
    (h : decode addOp (ir :: rest) = .unknown b ops tail) :
    b = ir ∧ ops.length = operandCount ir ∧ rest = ops ++ tail := by
  obtain ⟨-, hd⟩ | ⟨ops', tail', rfl, hlen, hd | ⟨i, -, hd⟩⟩ := decode_cons_cases addOp ir rest
  · cases hd.symm.trans h
  · cases hd.symm.trans h
    exact ⟨rfl, hlen, rfl⟩
  · cases hd.symm.trans h

end Sys2Proof

open Sys2Proof Sys2Proof.Machine

/-- Settles O7: a well-formed instruction has an encoding, and the dispatch table inverts it. -/
theorem encodeThenDecodeReturnsTheInstruction : Obligations.EncodeThenDecodeReturnsTheInstruction := by
  intro addOp i rest hwf
  obtain ⟨ir, ops, hw⟩ := (wellFormed_iff_encode addOp i).1 hwf
  exact ⟨ir :: ops, hw, decode_of_encode hw rest⟩

/-- Settles O8: what decodes to an instruction is an encoding, which only a well-formed instruction has. -/
theorem decodeThenEncodeReturnsTheBytes : Obligations.DecodeThenEncodeReturnsTheBytes := by
  intro addOp bs i rest h
  obtain ⟨ir, ops, hw, rfl⟩ := encode_of_decode h
  exact ⟨(wellFormed_iff_encode addOp i).2 ⟨ir, ops, hw⟩, ir :: ops, hw, rfl⟩

/-- Settles O2, outcome by outcome of decoding. -/
theorem lengthComesFromTheOpcodeByteAlone : Obligations.LengthComesFromTheOpcodeByteAlone := by
  intro addOp ir rest
  have hle := operandCount_le ir
  refine ⟨congrArg (1 + ·) (operandCount_eq_div ir), Nat.le_add_right 1 _, by rw [instrLength]; omega, ?_, ?_, ?_⟩
  · intro i tail h
    obtain ⟨_, ops, hw, hbs⟩ := encode_of_decode h
    obtain ⟨rfl, rfl⟩ := List.cons.inj hbs
    have hlen : (ir :: ops).length = instrLength ir := by
      rw [List.length_cons, operands_length_of_encode hw, instrLength, Nat.add_comm]
    rw [← List.cons_append, ← hlen]
    exact ⟨by simp, List.drop_left.symm⟩
  · intro b ops tail h
    obtain ⟨rfl, hlen, rfl⟩ := eq_of_decode_unknown h
    exact ⟨rfl, congrArg (1 + ·) hlen, rfl⟩
  · intro b
    rw [decode_eq_truncated_iff, List.length_cons, instrLength, Nat.add_comm 1, Nat.add_lt_add_iff_right]

/-- Settles O4: the word of ADD is its encoding, and with `none` ADD is not well-formed, so no bytes decode to it. -/
theorem addWordDecodesOnlyUnderItsParameter : Obligations.AddWordDecodesOnlyUnderItsParameter := by
  refine ⟨fun c a b rest => ?_, fun bs rest a b h => ?_⟩
  · obtain ⟨hcount, hpc⟩ := c.fields
    exact ⟨decode_of_encode (i := .add a b) (ops := [a, b]) rfl rest, by rw [instrLength, hcount], hpc⟩
  · exact Bool.false_ne_true (decodeThenEncodeReturnsTheBytes none bs _ rest h).1

/-- Settles O6: a known byte is one of the table's, and those have sets_pc 0 and at most two operands. -/
theorem everyOtherByteIsUnknown : Obligations.EveryOtherByteIsUnknown := by
  intro addOp ir
  refine ⟨dispatch_eq_unknown_iff addOp ir, fun hpc => ?_, fun hcount => ?_,
    fun ops rest hu hlen => decode_of_unknown hlen hu rest⟩
  · by_contra hknown
    rw [(known_byte_fields hknown).1] at hpc
    cases hpc
  · by_contra hknown
    exact (known_byte_fields hknown).2 hcount

/-- Settles O1: the opcode is the byte itself, and the other two fields are its bits as quotients. -/
theorem decoderFieldsAreTheBitLayout : Obligations.DecoderFieldsAreTheBitLayout :=
  fun ir => ⟨rfl, operandCount_eq_div ir, setsPc_iff ir⟩

/-- Settles O3: each word of the table is the encoding of its instruction. -/
theorem tableWordsDecode : Obligations.TableWordsDecode := fun _ r v rest =>
  ⟨decode_of_encode (i := .ldi r v) (ops := [r, v]) rfl rest, decode_of_encode (i := .prn r) (ops := [r]) rfl rest,
    decode_of_encode (i := .hlt) (ops := []) rfl rest, rfl, rfl⟩

end

section
/-! The ALU's `apply`, and the step of an engine whose opcode byte and operand bytes are known. -/

namespace Sys2Proof.Machine

/-! ### The ALU -/

/-- `apply` with its first register past 7: it is read first (40_alu.md R90). -/
theorem aluApply_of_left_ge (sel : AluSelect) (s : State) {a : Byte} (b : Byte) (ha : 8 ≤ a.toNat) :
    aluApply sel a b s = .error { kind := .invalidRegister, detail := a.toNat } := by
  simp [aluApply, regGet_of_ge s.x ha]

/-- `apply` with its second register alone past 7: it is read before the op is checked (40_alu.md R90). -/
theorem aluApply_of_right_ge (sel : AluSelect) (s : State) {a b : Byte} (ha : a.toNat < 8) (hb : 8 ≤ b.toNat) :
    aluApply sel a b s = .error { kind := .invalidRegister, detail := b.toNat } := by
  simp [aluApply, regGet_of_lt s.x ha, regGet_of_ge s.x hb]

/-- `apply` of a select outside `AluOp` to registers 0..7 (40_alu.md R92). -/
theorem aluApply_spare_of_lt (tag : Nat) (s : State) {a b : Byte} (ha : a.toNat < 8) (hb : b.toNat < 8) :
    aluApply (.spare tag) a b s = .error { kind := .unsupportedOperation, detail := tag } := by
  simp [aluApply, aluResult, regGet_of_lt s.x ha, regGet_of_lt s.x hb]

/-- `apply` of ADD to registers 0..7 (40_alu.md R90, R91). -/
theorem aluApply_add_of_lt (s : State) {a b : Byte} (ha : a.toNat < 8) (hb : b.toNat < 8) :
    aluApply (.op .add) a b s =
      .ok (s.withX (s.x.set a.toNat (BitVec.ofNat 8 (aluAdd s.x[a.toNat] s.x[b.toNat])))) := by
  simp [aluApply, aluResult, regGet_of_lt s.x ha, regGet_of_lt s.x hb, writeRegOperand_of_lt s ha (aluAdd_le _ _)]

/-- The sum fits the register it is written to. -/
theorem toNat_ofNat_aluAdd (va vb : Byte) : (BitVec.ofNat 8 (aluAdd va vb)).toNat = aluAdd va vb := by
  rw [BitVec.toNat_ofNat]
  exact Nat.mod_eq_of_lt (Nat.lt_succ_of_le (aluAdd_le va vb))

/-! ### Taking an error -/

/-- What taking an error leaves, once an opcode byte was fetched (60_exceptions.md R145). -/
theorem abort_eq_haltedWith {s : State} {kind : FaultKind} {code : Nat} (detail : Nat)
    (hpc : s.pc < 256) (hcode : kind.code = some code) :
    abort { kind := kind, detail := detail } s =
      s.haltedWith kind code (some (opcodeAtPc s)) detail kind.fatal := by
  rw [abort, fetchedIr_eq, if_pos hpc, hcode]
  rfl

/-! ### The step of the RUNNING engine -/

/-- The operand bytes of an opcode byte that takes two. -/
theorem operandsAtPc_of_two {s : State} (h : operandCount (opcodeAtPc s) = 2) :
    operandsAtPc s = [s.mem.read (s.pc + 1), s.mem.read (s.pc + 2)] := by
  rw [operandsAtPc, h]
  rfl

/-- The step of a known opcode whose operand bytes lie in memory runs its instruction (41_engine.md R113). -/
theorem step_of_handlerInstr {s : State} {i : Instr} (hrun : s.state = .running)
    (hfit : s.pc + 1 + operandCount (opcodeAtPc s) ≤ 256)
    (hi : handlerInstr (dispatch s.params.addOpcode (opcodeAtPc s)) (operandsAtPc s) = some i) :
    step s = exec i s := by
  have hfetch : fetch s = .instr i := by
    obtain ⟨hpc, -⟩ | ⟨-, hpast, -⟩ | ⟨-, ⟨j, hj, hf⟩ | ⟨hnone, -⟩⟩ := fetch_cases s
    · omega
    · omega
    · rw [hf, Option.some.inj (hj.symm.trans hi)]
    · cases hnone.symm.trans hi
  rw [step_running hrun, engineStep, hfetch]

/-- The step of an opcode whose operand bytes run past memory, known or unknown (41_engine.md R105). -/
theorem step_of_operands_past {s : State} (hrun : s.state = .running) (hpc : s.pc < 256)
    (hpast : 256 < s.pc + 1 + operandCount (opcodeAtPc s)) :
    step s = .next (s.haltedWith .outOfBounds 1 (some (opcodeAtPc s)) 256 true) := by
  have hfetch : fetch s = .failed { kind := .outOfBounds, detail := 256 } := by
    obtain ⟨hge, -⟩ | ⟨-, -, hf⟩ | ⟨hfit, -⟩ := fetch_cases s
    · omega
    · exact hf
    · omega
  rw [step_running hrun, engineStep, hfetch]
  exact congrArg Host.Outcome.next (abort_eq_haltedWith 256 hpc rfl)

/-- The step of P_ADD_OPCODE whose operand bytes lie in memory (30_encoding.md R79, 40_alu.md R93). -/
theorem step_of_addOpcode {s : State} {c : AddOpcode} (hrun : s.state = .running)
    (hparam : s.params.addOpcode = some c) (hop : opcodeAtPc s = c.byte) (hfit : s.pc + 3 ≤ 256) :
    step s = exec (.add (s.mem.read (s.pc + 1)) (s.mem.read (s.pc + 2))) s := by
  have hcount : operandCount (opcodeAtPc s) = 2 := hop ▸ c.fields.1
  refine step_of_handlerInstr hrun (by rwa [hcount]) ?_
  rw [operandsAtPc_of_two hcount, hop, hparam, dispatch_add]
  rfl

end Sys2Proof.Machine

open Sys2Proof Sys2Proof.Machine

/-- Settles O18, check by check in the order `a`, `b`, op. -/
theorem aluApplyContract : Obligations.AluApplyContract := by
  intro sel a b s
  refine ⟨aluApply_of_left_ge sel s b, aluApply_of_right_ge sel s, ?_, ?_⟩
  · rintro tag ha hb rfl
    exact aluApply_spare_of_lt tag s ha hb
  · rintro ha hb rfl
    exact aluApply_add_of_lt s ha hb

/-- Settles O22: the next state is the old one with `x[a]` and the pc written. -/
theorem addCompletes : Obligations.AddCompletes := by
  intro a b s ha hb
  refine ⟨_, exec_add_of_lt s ha hb, rfl, ?_, fun j hj => ?_, rfl⟩
  · rw [State.withPc_x, State.withX_x, Vector.getElem_set_self]
    exact toNat_ofNat_aluAdd _ _
  · rw [State.withPc_x, State.withX_x, getElem_set_register s.x ha, if_neg hj]

/-- Settles O31: in memory the step is `exec` of ADD, whose three answers are its register cases; at pc 254 and 255 an
operand byte is past memory. -/
theorem addStep : Obligations.AddStep := by
  intro s c hrun hparam hop
  refine ⟨?_, fun hge hle => ?_⟩
  · rintro a b hpc rfl rfl
    rw [step_of_addOpcode hrun hparam hop (by omega)]
    have habort (r : Byte) : abort { kind := .invalidRegister, detail := r.toNat } s =
        s.haltedWith .invalidRegister 2 (some c.byte) r.toNat true :=
      hop ▸ abort_eq_haltedWith r.toNat (by omega) rfl
    refine ⟨fun ha hb => exec_add_of_lt s ha hb, fun ha => ?_, fun ha hb => ?_⟩
    · rw [exec_add_of_left_ge s _ ha, habort]
    · rw [exec_add_of_right_ge s ha hb, habort]
  · have hcount : operandCount (opcodeAtPc s) = 2 := (congrArg operandCount hop).trans c.fields.1
    exact hop ▸ step_of_operands_past hrun (by omega) (by omega)

/-- Settles O17: the sum is below 512, so the remainder takes 256 away at most once. -/
theorem aluAdditionWraps : Obligations.AluAdditionWraps := by
  intro va vb
  have hva := va.isLt
  have hvb := vb.isLt
  refine ⟨rfl, rfl, fun hle => Nat.mod_eq_of_lt (by omega), fun hge => ?_⟩
  rw [aluAdd]
  omega

end

section
/-! The step of the RUNNING engine: which byte selects which handler, what decoding the bytes at the pc says about the
step, where the pc goes, how a run ends, and what a step reads. -/

namespace Sys2Proof

/-- The one opcode byte a handler stands under in the dispatch table; UNKNOWN stands under none (41_engine.md R106). -/
def Handler.opcode (addOp : Option AddOpcode) : Handler → Option Byte
  | .ldi => some 0x82#8
  | .prn => some 0x47#8
  | .hlt => some 0x01#8
  | .add => addOp.map AddOpcode.byte
  | .unknown => none

/-- A known byte is the one its handler stands under. -/
theorem opcode_dispatch {addOp : Option AddOpcode} {ir : Byte} (h : dispatch addOp ir ≠ .unknown) :
    (dispatch addOp ir).opcode addOp = some ir := by
  obtain rfl | rfl | rfl | ⟨c, rfl, rfl⟩ := known_byte_cases h
  · rfl
  · rfl
  · rfl
  · rw [dispatch_add]
    rfl

/-- A byte selects a handler exactly when the handler stands under it. -/
theorem dispatch_eq_iff (addOp : Option AddOpcode) (ir : Byte) (h : Handler) (hknown : h ≠ .unknown) :
    dispatch addOp ir = h ↔ h.opcode addOp = some ir := by
  constructor
  · rintro rfl
    exact opcode_dispatch hknown
  · intro hop
    cases h with
    | ldi => cases hop; rfl
    | prn => cases hop; rfl
    | hlt => cases hop; rfl
    | add =>
      obtain ⟨c, rfl, rfl⟩ := Option.map_eq_some_iff.1 hop
      exact dispatch_add c
    | unknown => exact absurd rfl hknown

/-- The handler of UNKNOWN gives no instruction. -/
theorem dispatch_ne_unknown_of_handlerInstr {addOp : Option AddOpcode} {ir : Byte} {ops : List Byte} {i : Instr}
    (h : handlerInstr (dispatch addOp ir) ops = some i) : dispatch addOp ir ≠ .unknown := by
  intro hu
  rw [hu] at h
  cases h

end Sys2Proof

namespace Sys2Proof.Machine

/-! ### The step by what the bytes at the pc decode to -/

/-- The step with no opcode byte in memory (41_engine.md R102). -/
theorem step_of_pc_past {s : State} (hrun : s.state = .running) (hpc : 256 ≤ s.pc) :
    step s = .next (abort { kind := .outOfBounds, detail := s.pc } s) := by
  have hfetch : fetch s = .failed { kind := .outOfBounds, detail := s.pc } := by
    rw [fetch, memRead_of_ge s.mem hpc]
  rw [step_running hrun, engineStep, hfetch]

/-- What taking an error leaves, when no opcode byte was fetched (60_exceptions.md R145). -/
theorem abort_eq_haltedWith_of_pc_past {s : State} {kind : FaultKind} {code : Nat} (detail : Nat)
    (hpc : 256 ≤ s.pc) (hcode : kind.code = some code) :
    abort { kind := kind, detail := detail } s = s.haltedWith kind code none detail kind.fatal := by
  rw [abort, fetchedIr_eq, if_neg (Nat.not_lt.2 hpc), hcode]
  rfl

/-- The step at pc 256, the only pc past memory that is reached (41_engine.md R102). -/
theorem step_of_pc_eq_256 {s : State} (hrun : s.state = .running) (hpc : s.pc = 256) :
    step s = .next (s.haltedWith .outOfBounds 1 none 256 true) := by
  rw [step_of_pc_past hrun hpc.ge, hpc]
  exact congrArg Host.Outcome.next (abort_eq_haltedWith_of_pc_past 256 hpc.ge rfl)

/-- The step of an unknown opcode whose operand bytes lie in memory (41_engine.md R110). -/
theorem step_of_unknown {s : State} (hrun : s.state = .running)
    (hfit : s.pc + 1 + operandCount (opcodeAtPc s) ≤ 256)
    (hu : dispatch s.params.addOpcode (opcodeAtPc s) = .unknown) :
    step s = .next (haltUnrecognized (opcodeAtPc s) s) := by
  have hnone := (handlerInstr_eq_none_iff _ _ _ (operandsAtPc_length s)).2 hu
  have hfetch : fetch s = .unknown (opcodeAtPc s) := by
    obtain ⟨hpc, -⟩ | ⟨-, hpast, -⟩ | ⟨-, ⟨i, hi, -⟩ | ⟨-, hf⟩⟩ := fetch_cases s
    · omega
    · omega
    · cases hnone.symm.trans hi
    · exact hf
  rw [step_running hrun, engineStep, hfetch]

/-- The pc after an unknown opcode, under ADVANCE (41_engine.md R111). -/
theorem haltUnrecognized_pc_of_advance {s : State} (h : s.params.pcAfterUnrecognized = .advance) (ir : Byte) :
    (haltUnrecognized ir s).pc = nextPc s.pc (operandCount ir) (setsPc ir) none := by
  simp [haltUnrecognized, h]

/-- The pc after an unknown opcode, under HOLD (41_engine.md R111). -/
theorem haltUnrecognized_pc_of_hold {s : State} (h : s.params.pcAfterUnrecognized = .hold) (ir : Byte) :
    (haltUnrecognized ir s).pc = s.pc := by
  simp [haltUnrecognized, h]

/-- There is no byte at a pc past memory. -/
theorem bytesAtPc_of_pc_past {s : State} (hpc : 256 ≤ s.pc) : bytesAtPc s = [] := by
  simp [bytesAtPc, Nat.sub_eq_zero_of_le hpc]

/-- The bytes at a pc in memory: the opcode byte, and as many more as memory holds. -/
theorem bytesAtPc_eq_cons {s : State} (hpc : s.pc < 256) :
    ∃ rest, bytesAtPc s = opcodeAtPc s :: rest ∧ s.pc + 1 + rest.length = 256 := by
  obtain ⟨d, hd⟩ := Nat.exists_eq_add_of_lt hpc
  have hn : 256 - s.pc = d + 1 := by omega
  refine ⟨(List.range d).map fun k => s.mem.read (s.pc + (k + 1)), ?_, by simp; omega⟩
  simp [bytesAtPc, opcodeAtPc, hn, List.range_succ_eq_map, Function.comp_def]

/-- Everything the bytes at the pc can decode to, case by case as fetch comes to it (41_engine.md R101 to R106). -/
theorem decode_bytesAtPc_cases (s : State) :
    (256 ≤ s.pc ∧ decode s.params.addOpcode (bytesAtPc s) = .empty) ∨
    (s.pc < 256 ∧ 256 < s.pc + 1 + operandCount (opcodeAtPc s) ∧
      decode s.params.addOpcode (bytesAtPc s) = .truncated (opcodeAtPc s)) ∨
    (s.pc + 1 + operandCount (opcodeAtPc s) ≤ 256 ∧ ∃ rest,
      (dispatch s.params.addOpcode (opcodeAtPc s) = .unknown ∧
        decode s.params.addOpcode (bytesAtPc s) = .unknown (opcodeAtPc s) (operandsAtPc s) rest) ∨
      ∃ i, handlerInstr (dispatch s.params.addOpcode (opcodeAtPc s)) (operandsAtPc s) = some i ∧
        decode s.params.addOpcode (bytesAtPc s) = .instr i rest) := by
  have hlen := operandsAtPc_length s
  rcases Nat.lt_or_ge s.pc 256 with hpc | hpc
  · rcases Nat.lt_or_ge 256 (s.pc + 1 + operandCount (opcodeAtPc s)) with hpast | hfit
    · obtain ⟨rest, hbytes, hrest⟩ := bytesAtPc_eq_cons hpc
      refine .inr (.inl ⟨hpc, hpast, ?_⟩)
      rw [hbytes, decode_eq_truncated_iff]
      exact ⟨rfl, by omega⟩
    · obtain ⟨rest, hbytes⟩ := bytesAtPc_eq_append hfit
      refine .inr (.inr ⟨hfit, rest, ?_⟩)
      rw [hbytes]
      cases hi : handlerInstr (dispatch s.params.addOpcode (opcodeAtPc s)) (operandsAtPc s) with
      | none =>
        have hu := (handlerInstr_eq_none_iff _ _ _ hlen).1 hi
        exact .inl ⟨hu, decode_of_unknown hlen hu rest⟩
      | some i => exact .inr ⟨i, rfl, decode_of_handlerInstr hlen hi rest⟩
  · exact .inl ⟨hpc, by rw [bytesAtPc_of_pc_past hpc, decode_nil]⟩

/-! ### The pc, the state and the latch after a step -/

/-- An instruction that takes no error moves the pc past itself (41_engine.md R107). -/
theorem exec_pc_of_fault_eq_none {s t : State} {i : Instr} (h : exec i s = .next t) (hfault : t.fault = none) :
    t.pc = s.pc + 1 + i.operandBytes := by
  cases i with
  | ldi r v =>
    obtain ⟨-, rfl⟩ | ⟨-, rfl⟩ := exec_ldi_cases h
    · rfl
    · cases hfault
  | prn r =>
    obtain ⟨-, rfl⟩ | ⟨-, rfl⟩ := exec_prn_cases h
    · rfl
    · cases hfault
  | hlt =>
    rw [exec_hlt] at h
    cases h
    rfl
  | add a b =>
    obtain ⟨-, -, rfl⟩ | ⟨-, rfl⟩ | ⟨-, -, rfl⟩ := exec_add_cases h
    · rfl
    · cases hfault
    · cases hfault

/-- A move of the RUNNING engine leaves it RUNNING with the same latch, or halts it (41_engine.md R115). -/
theorem EngineMove.running_or_halted {s t : State} (h : EngineMove s t) (hrun : s.state = .running) :
    (t.state = .running ∧ t.fault = s.fault) ∨ t.state = .halted := by
  cases h with
  | fetchPastMemory => exact .inr rfl
  | badRegister r hr => exact .inr rfl
  | unknown hfit hdispatch => exact .inr rfl
  | registerWrite r v hfit => exact .inl ⟨hrun, rfl⟩
  | print r v rest hfit => exact .inl ⟨hrun, rfl⟩
  | halt rest hfit => exact .inr rfl

/-- A move that leaves the engine RUNNING is LDI, ADD or PRN, which have 3, 3 and 2 bytes (41_engine.md R118). -/
theorem EngineMove.pc_of_running {s t : State} (h : EngineMove s t) (hrun : t.state = .running) :
    (t.pc = s.pc + 2 ∨ t.pc = s.pc + 3) ∧ t.pc ≤ 256 := by
  cases h with
  | fetchPastMemory => cases hrun
  | badRegister r hr => cases hrun
  | unknown hfit hdispatch => cases hrun
  | registerWrite r v hfit => exact ⟨.inr rfl, hfit⟩
  | print r v rest hfit => exact ⟨.inl rfl, hfit⟩
  | halt rest hfit => cases hrun

/-- A move that latches a fatal record takes an error of the fetch or of a register operand (60_exceptions.md R145). -/
theorem EngineMove.eq_abort_of_fatal {s t : State} (h : EngineMove s t) (hempty : s.fault = none) {f : FaultRecord}
    (hf : t.fault = some f) (hfatal : f.fatal = true) :
    t = abort { kind := .outOfBounds, detail := max s.pc 256 } s ∨
    ∃ r : Byte, 8 ≤ r.toNat ∧ t = abort { kind := .invalidRegister, detail := r.toNat } s := by
  cases h with
  | fetchPastMemory => exact .inl rfl
  | badRegister r hr => exact .inr ⟨r, hr, rfl⟩
  | unknown hfit hdispatch => cases hf; cases hfatal
  | registerWrite r v hfit => cases hempty.symm.trans hf
  | print r v rest hfit => cases hempty.symm.trans hf
  | halt rest hfit => cases hempty.symm.trans hf

/-- A HALTED engine's turn answers the same state, or the fault outcome for a fatal record (log entry 7). -/
theorem haltedTurn_cases (s : State) :
    haltedTurn s = .next s ∨ ∃ f, s.fault = some f ∧ f.fatal = true ∧ haltedTurn s = .fault (.aborted f) := by
  unfold haltedTurn
  cases hf : s.fault with
  | none => exact .inl rfl
  | some f =>
    cases hfatal : f.fatal with
    | false => exact .inl (by simp [hfatal])
    | true => exact .inr ⟨f, rfl, hfatal, by simp [hfatal]⟩

/-! ### Runs -/

/-- The first step of a run of the host's machine. -/
theorem run_succ {s t : State} (h : step s = .next t) (k : Nat) :
    Host.Core.run Sys2Proof.core (k + 1) s = Host.Core.run Sys2Proof.core k t := by
  have hcore : Sys2Proof.core.step s = .next t := h
  simp only [Host.Core.run, hcore]

/-- The loop takes a step while the engine is RUNNING (41_engine.md R112). -/
theorem runLoop_succ {s t : State} (hrun : s.state = .running) (h : engineStep s = .next t) (n : Nat) :
    runLoop (n + 1) s = runLoop n t := by
  rw [runLoop, if_pos ((running_iff s).2 hrun), h]

/-- The loop ends when the engine is HALTED (41_engine.md R112). -/
theorem runLoop_of_halted {s : State} (h : s.state = .halted) (n : Nat) : runLoop n s = s := by
  cases n with
  | zero => rfl
  | succ n => rw [runLoop, if_neg (by simp [h])]

/-- At most `n` steps of the host's machine bring `s` to a HALTED state, in which the loop with fuel `n` ends too. -/
def State.HaltsWithin (n : Nat) (s : State) : Prop :=
  ∃ k t, k ≤ n ∧ Host.Core.run Sys2Proof.core k s = .next t ∧ t.state = .halted ∧ runLoop n s = t

theorem State.HaltsWithin.of_halted {s : State} (h : s.state = .halted) (n : Nat) : s.HaltsWithin n :=
  ⟨0, s, Nat.zero_le n, rfl, h, runLoop_of_halted h n⟩

theorem State.HaltsWithin.of_step {s t : State} {n : Nat} (hrun : s.state = .running)
    (h : engineStep s = .next t) (ht : t.HaltsWithin n) : s.HaltsWithin (n + 1) := by
  obtain ⟨k, u, hk, hu, hhalted, hloop⟩ := ht
  have hstep : step s = .next t := (step_running hrun).trans h
  exact ⟨k + 1, u, Nat.succ_le_succ hk, (run_succ hstep k).trans hu, hhalted, (runLoop_succ hrun h n).trans hloop⟩

/-- A step that leaves the engine RUNNING takes at least 2 from the room below the top of memory, so one step more than
the room allows halts the engine (41_engine.md R118). -/
theorem State.HaltsWithin.of_room (n : Nat) {s : State} (hrun : s.state = .running) (hroom : 255 ≤ s.pc + 2 * n) :
    s.HaltsWithin (n + 1) := by
  induction n generalizing s with
  | zero =>
    obtain ⟨t, ht⟩ := engineStep_next s
    have hmove := engineMove_of_engineStep ht
    refine .of_step hrun ht (.of_halted ?_ 0)
    refine (hmove.running_or_halted hrun).resolve_left fun ⟨hrun', _⟩ => ?_
    have hpc := hmove.pc_of_running hrun'
    omega
  | succ n ih =>
    obtain ⟨t, ht⟩ := engineStep_next s
    have hmove := engineMove_of_engineStep ht
    refine .of_step hrun ht ?_
    obtain ⟨hrun', -⟩ | hhalted := hmove.running_or_halted hrun
    · have hpc := hmove.pc_of_running hrun'
      exact ih hrun' (by omega)
    · exact .of_halted hhalted (n + 1)

/-! ### What a step reads -/

/-- A read depends on its own cell only. -/
theorem memRead_congr {m m' : Memory} {a : Nat} (h : m.read a = m'.read a) : memRead m a = memRead m' a := by
  rw [memRead, memRead, h]

/-- Reading a row of bytes depends on the cells of the row only (41_engine.md R104). -/
theorem readFrom_congr {m m' : Memory} {a n : Nat} (h : ∀ k, a ≤ k → k < a + n → m.read k = m'.read k) :
    readFrom m a n = readFrom m' a n := by
  induction n generalizing a with
  | zero => rfl
  | succ n ih =>
    have hrest : readFrom m (a + 1) n = readFrom m' (a + 1) n := ih fun k hk hlt => h k (by omega) (by omega)
    rw [readFrom, readFrom, memRead_congr (h a le_rfl (by omega)), hrest]

/-- Fetch depends on the bytes of the instruction at the pc only (41_engine.md R101, R104). -/
theorem fetch_withMem {s : State} {m : Memory}
    (h : ∀ a, s.pc ≤ a → a ≤ s.pc + operandCount (opcodeAtPc s) → m.read a = s.mem.read a) :
    fetch (s.withMem m) = fetch s := by
  have hop : memRead m s.pc = memRead s.mem s.pc := memRead_congr (h s.pc le_rfl (Nat.le_add_right _ _))
  have hoperands : readFrom m (s.pc + 1) (operandCount (opcodeAtPc s)) =
      readFrom s.mem (s.pc + 1) (operandCount (opcodeAtPc s)) :=
    readFrom_congr fun k hk hlt => h k (by omega) (by omega)
  simp only [fetch, State.withMem_mem, State.withMem_pc, State.withMem_params, hop]
  rcases memRead_cases s.mem s.pc with ⟨-, he⟩ | ⟨-, he⟩
  · rw [opcodeAtPc] at hoperands
    simp only [he, decodeFields, hoperands]
  · simp only [he]

/-- Taking an error depends on the opcode byte only. -/
theorem abort_withMem {s : State} {m : Memory} (h : m.read s.pc = s.mem.read s.pc) (e : ErrorInfo) :
    abort e (s.withMem m) = (abort e s).withMem m := by
  have hir : fetchedIr (s.withMem m) = fetchedIr s := by
    rw [fetchedIr_eq, fetchedIr_eq, opcodeAtPc, opcodeAtPc, State.withMem_mem, State.withMem_pc, h]
  rw [abort, hir]
  rfl

/-- An instruction reads no memory, but for the opcode byte that the record of an error names. -/
theorem exec_withMem {s t : State} {m : Memory} {i : Instr} (hop : m.read s.pc = s.mem.read s.pc)
    (h : exec i s = .next t) : exec i (s.withMem m) = .next (t.withMem m) := by
  cases i with
  | ldi r v =>
    obtain ⟨hr, rfl⟩ | ⟨hr, rfl⟩ := exec_ldi_cases h
    · exact exec_ldi_of_lt _ v hr
    · rw [exec_ldi_of_ge _ v hr, abort_withMem hop]
  | prn r =>
    obtain ⟨hr, rfl⟩ | ⟨hr, rfl⟩ := exec_prn_cases h
    · exact exec_prn_of_lt _ hr
    · rw [exec_prn_of_ge _ hr, abort_withMem hop]
  | hlt =>
    rw [exec_hlt] at h
    cases h
    rfl
  | add a b =>
    obtain ⟨ha, hb, rfl⟩ | ⟨ha, rfl⟩ | ⟨ha, hb, rfl⟩ := exec_add_cases h
    · exact exec_add_of_lt _ ha hb
    · rw [exec_add_of_left_ge _ b ha, abort_withMem hop]
    · rw [exec_add_of_right_ge _ ha hb, abort_withMem hop]

end Sys2Proof.Machine

open Sys2Proof Sys2Proof.Machine

/-- Settles O5: no two handlers of the dispatch table stand under one byte. -/
theorem dispatchIsKeyedByTheWholeByte : Obligations.DispatchIsKeyedByTheWholeByte := by
  intro addOp ir
  refine ⟨?_, ?_, ?_, ?_⟩
  · rw [dispatch_eq_iff addOp ir .ldi nofun, Handler.opcode, Option.some_inj, eq_comm]
  · rw [dispatch_eq_iff addOp ir .prn nofun, Handler.opcode, Option.some_inj, eq_comm]
  · rw [dispatch_eq_iff addOp ir .hlt nofun, Handler.opcode, Option.some_inj, eq_comm]
  · rw [dispatch_eq_iff addOp ir .add nofun, Handler.opcode, Option.map_eq_some_iff]
    exact exists_congr fun c => and_congr_right' eq_comm

/-- Settles O26: bytes that decode to an instruction are those of a known opcode with its operands in memory. -/
theorem stepRunsTheDecodedInstruction : Obligations.StepRunsTheDecodedInstruction := by
  intro s i rest hrun h
  obtain ⟨-, hd⟩ | ⟨-, -, hd⟩ | ⟨hfit, _, ⟨-, hd⟩ | ⟨j, hj, hd⟩⟩ := decode_bytesAtPc_cases s
  · cases hd.symm.trans h
  · cases hd.symm.trans h
  · cases hd.symm.trans h
  · cases hd.symm.trans h
    exact step_of_handlerInstr hrun hfit hj

/-- Settles O27, outcome by outcome of decoding. -/
theorem stepOnBytesThatDoNotDecode : Obligations.StepOnBytesThatDoNotDecode := by
  intro s hrun hle
  obtain ⟨hpc, hd⟩ | ⟨hpc, hpast, hd⟩ | ⟨hfit, rest, ⟨hu, hd⟩ | ⟨j, -, hd⟩⟩ := decode_bytesAtPc_cases s
  · rw [hd]
    exact ⟨fun _ => step_of_pc_eq_256 hrun (le_antisymm hle hpc), nofun, nofun⟩
  · rw [hd]
    refine ⟨nofun, ?_, nofun⟩
    rintro _ ⟨⟩
    exact step_of_operands_past hrun hpc hpast
  · rw [hd]
    refine ⟨nofun, nofun, ?_⟩
    rintro _ _ _ ⟨⟩
    exact ⟨_, step_of_unknown hrun hfit hu⟩
  · rw [hd]
    exact ⟨nofun, nofun, nofun⟩

/-- Settles O32: the first read that fails is the fetch, or an operand byte's. -/
theorem fetchPastMemoryAborts : Obligations.FetchPastMemoryAborts := by
  intro s hrun
  refine ⟨step_of_pc_eq_256 hrun, fun hpc hpast => step_of_operands_past hrun (by omega) ?_⟩
  rw [operandCount_eq_div]
  omega

/-- Settles O33: the step is the UNKNOWN handler, which writes the latch, HALTED and the pc. -/
theorem unknownOpcodeHalts : Obligations.UnknownOpcodeHalts := by
  intro s hrun hfit hu
  rw [← operandCount_eq_div] at hfit
  exact ⟨_, step_of_unknown hrun (by omega) hu⟩

/-- Settles O34: the pc that the UNKNOWN handler writes. -/
theorem pcAfterUnknownOpcode : Obligations.PcAfterUnknownOpcode := by
  intro s t hrun hfit hu h
  rw [← operandCount_eq_div] at hfit ⊢
  cases (step_of_unknown hrun (by omega) hu).symm.trans h
  refine ⟨fun hadvance hpc => ?_, fun hadvance hpc => ?_, fun hhold => haltUnrecognized_pc_of_hold hhold _⟩
  · rw [haltUnrecognized_pc_of_advance hadvance, hpc, nextPc_advance]
  · rw [haltUnrecognized_pc_of_advance hadvance, hpc, nextPc_none]

/-- Settles O35: only a known opcode with its operand bytes in memory latches no fault. -/
theorem pcAdvancesByTheInstructionLength : Obligations.PcAdvancesByTheInstructionLength := by
  intro s t hrun h hfault
  obtain ⟨hpc, -⟩ | ⟨hpc, hpast, -⟩ | ⟨hfit, _, ⟨hu, -⟩ | ⟨i, hi, -⟩⟩ := decode_bytesAtPc_cases s
  · cases (step_of_pc_past hrun hpc).symm.trans h
    cases hfault
  · cases (step_of_operands_past hrun hpc hpast).symm.trans h
    cases hfault
  · cases (step_of_unknown hrun hfit hu).symm.trans h
    cases hfault
  · rw [step_of_handlerInstr hrun hfit hi] at h
    have hlen : operandCount (opcodeAtPc s) = i.operandBytes :=
      (operandsAtPc_length s).symm.trans (length_of_handlerInstr hi)
    have hpc : t.pc = s.pc + 1 + operandCount (opcodeAtPc s) := hlen ▸ exec_pc_of_fault_eq_none h hfault
    exact ⟨hpc, hpc ▸ hfit, (known_byte_fields (dispatch_ne_unknown_of_handlerInstr hi)).1⟩

/-- Settles O36: a fatal record comes from the taking of an error, which writes the latch and HALTED. -/
theorem fatalErrorsArePrecise : Obligations.FatalErrorsArePrecise := by
  intro s t f hrun hempty hle h hf hfatal
  rw [step_running hrun] at h
  obtain rfl | ⟨r, hr, rfl⟩ := (engineMove_of_engineStep h).eq_abort_of_fatal hempty hf hfatal
  · cases hf
    exact ⟨rfl, rfl, fetchedIr_eq s, .inl ⟨rfl, rfl, Nat.max_eq_right hle⟩⟩
  · cases hf
    exact ⟨rfl, rfl, fetchedIr_eq s, .inr ⟨rfl, rfl, hr, Nat.le_of_lt_succ r.isLt⟩⟩

/-- Settles O37, move by move of the engine. -/
theorem stepWritesAtMostOneThing : Obligations.StepWritesAtMostOneThing := by
  intro s t hrun h
  rw [step_running hrun] at h
  cases engineMove_of_engineStep h with
  | fetchPastMemory => exact .inr (.inr rfl)
  | badRegister r hr => exact .inr (.inr rfl)
  | unknown hfit hdispatch => exact .inr (.inr rfl)
  | registerWrite r v hfit => exact .inl ⟨r, v, rfl⟩
  | print r v rest hfit => exact .inr (.inl ⟨v, rfl⟩)
  | halt rest hfit => exact .inr (.inr rfl)

/-- Settles O39, along the step's inversion. -/
theorem stepFollowsTheTransitionTable : Obligations.StepFollowsTheTransitionTable := by
  intro s t h
  obtain ⟨hs, rfl⟩ | ⟨hs, hmove⟩ | ⟨hs, rfl⟩ := step_cases h
  · rw [hs]
    exact ⟨fun _ => rfl, nofun, nofun⟩
  · rw [hs]
    exact ⟨nofun, fun _ => hmove.running_or_halted hs, nofun⟩
  · rw [hs]
    exact ⟨nofun, nofun, fun _ => rfl⟩

/-- Settles O42, by the state of the engine. -/
theorem everyStepAnswersNextButAfterAnAbort : Obligations.EveryStepAnswersNextButAfterAnAbort := by
  intro s
  cases hs : s.state with
  | idle => exact .inl ⟨runEntry s, by rw [step, hs]⟩
  | running => exact .inl (step_running hs ▸ engineStep_next s)
  | halted =>
    have hstep : step s = haltedTurn s := by rw [step, hs]
    obtain hnext | ⟨f, hf, hfatal, haborted⟩ := haltedTurn_cases s
    · exact .inl ⟨s, hstep.trans hnext⟩
    · exact .inr ⟨f, rfl, hf, hfatal, hstep.trans haborted⟩

/-- Settles O45: the move that leaves the engine RUNNING is LDI, ADD or PRN. -/
theorem runningStepsRaiseThePc : Obligations.RunningStepsRaiseThePc := by
  intro s t hrun h hrun'
  rw [step_running hrun] at h
  exact (engineMove_of_engineStep h).pc_of_running hrun'

/-- Settles O46: memory has room for at most 128 steps that leave the engine RUNNING. -/
theorem everyRunEndsWithin129Steps : Obligations.EveryRunEndsWithin129Steps :=
  fun _ hrun => State.HaltsWithin.of_room 128 hrun (by omega)

/-- Settles O52: fetch reads the instruction's bytes only, and what comes after it reads no other byte. -/
theorem stepReadsOnlyItsInstructionBytes : Obligations.StepReadsOnlyItsInstructionBytes := by
  intro s t m hrun hread h
  have hop : m.read s.pc = s.mem.read s.pc := hread s.pc le_rfl (Nat.le_add_right _ _)
  have hrun' : (s.withMem m).state = .running := hrun
  show step (s.withMem m) = .next (t.withMem m)
  rw [step_running hrun, engineStep] at h
  rw [step_running hrun', engineStep, fetch_withMem hread]
  cases hf : fetch s with
  | failed e =>
    rw [hf] at h
    cases h
    exact congrArg Host.Outcome.next (abort_withMem hop e)
  | unknown ir =>
    rw [hf] at h
    cases h
    rfl
  | instr i =>
    rw [hf] at h
    exact exec_withMem hop h

end

section
/-! LDI (42_ldi.md): what its `exec` completes with, and the step of its opcode byte. -/

namespace Sys2Proof.Machine

/-- Reading the register that was written last. -/
theorem regGet_set_self (x : Vector Byte 8) {i : Byte} (h : i.toNat < 8) (v : Byte) :
    regGet (x.set i.toNat v) i = .ok v := by
  rw [regGet_of_lt _ h, Vector.getElem_set_self]

/-- LDI takes two operand bytes (30_encoding.md R77). -/
theorem operandCount_ldi : operandCount 0x82#8 = 2 := rfl

/-- The step of `0x82` whose operand bytes lie in memory (30_encoding.md R77, 41_engine.md R113). -/
theorem step_of_ldiOpcode {s : State} (hrun : s.state = .running) (hop : opcodeAtPc s = 0x82#8)
    (hfit : s.pc + 3 ≤ 256) :
    step s = exec (.ldi (s.mem.read (s.pc + 1)) (s.mem.read (s.pc + 2))) s := by
  have hcount : operandCount (opcodeAtPc s) = 2 := hop ▸ operandCount_ldi
  refine step_of_handlerInstr hrun (by rwa [hcount]) ?_
  rw [operandsAtPc_of_two hcount, hop, dispatch_ldi]
  rfl

end Sys2Proof.Machine

open Sys2Proof Sys2Proof.Machine

/-- Settles O19: the port takes the register and every immediate byte. -/
theorem ldiCompletes : Obligations.LdiCompletes := fun _ v s h => exec_ldi_of_lt s v h

/-- Settles O28: in memory the step is `exec` of LDI, whose two answers are its register cases; at pc 254 and 255 an
operand byte is past memory. -/
theorem ldiStep : Obligations.LdiStep := by
  intro s hrun (hop : opcodeAtPc s = 0x82#8)
  refine ⟨?_, fun hge hle => ?_⟩
  · rintro r v hpc rfl rfl
    rw [step_of_ldiOpcode hrun hop (by omega)]
    refine ⟨fun hr => ⟨_, ldiCompletes _ _ s hr, rfl, regGet_set_self s.x hr _⟩, fun hr => ?_⟩
    rw [exec_ldi_of_ge s _ hr, ← hop]
    exact congrArg Host.Outcome.next (abort_eq_haltedWith _ (by omega) rfl)
  · have hcount : operandCount (opcodeAtPc s) = 2 := hop ▸ operandCount_ldi
    exact hop ▸ step_of_operands_past hrun (by omega) (by omega)

end

section
/-! PRN (43_prn.md): what its `exec` completes with, the step of its opcode byte, and its frame beside HLT's. -/

namespace Sys2Proof.Machine

/-- Everything HLT can do. -/
theorem eq_of_exec_hlt {s t : State} (h : exec .hlt s = .next t) :
    t = (s.withState .halted).withPc (s.pc + 1) :=
  (Host.Outcome.next.inj ((exec_hlt s).symm.trans h)).symm

/-- PRN takes one operand byte (30_encoding.md R78). -/
theorem operandCount_prn : operandCount 0x47#8 = 1 := rfl

/-- The operand byte of an opcode byte that takes one. -/
theorem operandsAtPc_of_one {s : State} (h : operandCount (opcodeAtPc s) = 1) :
    operandsAtPc s = [s.mem.read (s.pc + 1)] := by
  rw [operandsAtPc, h]
  rfl

/-- The step of `0x47` whose operand byte lies in memory (30_encoding.md R78, 41_engine.md R113). -/
theorem step_of_prnOpcode {s : State} (hrun : s.state = .running) (hop : opcodeAtPc s = 0x47#8)
    (hfit : s.pc + 2 ≤ 256) : step s = exec (.prn (s.mem.read (s.pc + 1))) s := by
  have hcount : operandCount (opcodeAtPc s) = 1 := hop ▸ operandCount_prn
  refine step_of_handlerInstr hrun (by rwa [hcount]) ?_
  rw [operandsAtPc_of_one hcount, hop, dispatch_prn]
  rfl

end Sys2Proof.Machine

open Sys2Proof Sys2Proof.Machine

/-- Settles O20: the register is read and its value emitted. -/
theorem prnCompletes : Obligations.PrnCompletes := fun _ s h => exec_prn_of_lt s h

/-- Settles O25: PRN emits or takes an error, HLT sets the engine's state, and each clause reads a field that these
leave alone. -/
theorem prnAndHltFrame : Obligations.PrnAndHltFrame := by
  intro r s t
  refine ⟨?_, fun h hr => ?_, fun h hr => ?_, fun h => ?_⟩
  · rintro (h | h)
    · obtain ⟨_, rfl⟩ | ⟨_, rfl⟩ := exec_prn_cases h
      · exact ⟨rfl, rfl, fun _ => rfl⟩
      · exact ⟨rfl, rfl, fun _ => rfl⟩
    · obtain rfl := eq_of_exec_hlt h
      exact ⟨rfl, rfl, fun _ => rfl⟩
  · obtain ⟨_, rfl⟩ | ⟨hlarge, _⟩ := exec_prn_cases h
    · exact ⟨rfl, rfl⟩
    · omega
  · obtain ⟨hsmall, _⟩ | ⟨_, rfl⟩ := exec_prn_cases h
    · omega
    · exact ⟨rfl, rfl⟩
  · obtain rfl := eq_of_exec_hlt h
    exact ⟨rfl, rfl⟩

/-- Settles O29: in memory the step is `exec` of PRN, whose two answers are its register cases; at pc 255 the operand
byte is past memory. -/
theorem prnStep : Obligations.PrnStep := by
  intro s hrun (hop : opcodeAtPc s = 0x47#8)
  refine ⟨?_, fun hpc => ?_⟩
  · rintro r hpc rfl
    rw [step_of_prnOpcode hrun hop (by omega)]
    refine ⟨prnCompletes _ s, fun hr => ?_⟩
    rw [exec_prn_of_ge s hr, ← hop]
    exact congrArg Host.Outcome.next (abort_eq_haltedWith _ (by omega) rfl)
  · have hcount : operandCount (opcodeAtPc s) = 1 := hop ▸ operandCount_prn
    exact hop ▸ step_of_operands_past hrun (by omega) (by omega)

end

section
/-! HLT (44_hlt.md): what its `exec` completes with, and the step of its opcode byte. -/

namespace Sys2Proof.Machine

/-- HLT takes no operand byte (30_encoding.md R80). -/
theorem operandCount_hlt : operandCount 0x01#8 = 0 := rfl

/-- The step of `0x01` at an address of memory (30_encoding.md R80, 41_engine.md R113): no operand byte can lie past
memory. -/
theorem step_of_hltOpcode {s : State} (hrun : s.state = .running) (hop : opcodeAtPc s = 0x01#8)
    (hfit : s.pc + 1 ≤ 256) : step s = exec .hlt s := by
  have hcount : operandCount (opcodeAtPc s) = 0 := hop ▸ operandCount_hlt
  have hops : operandsAtPc s = [] := List.eq_nil_of_length_eq_zero ((operandsAtPc_length s).trans hcount)
  refine step_of_handlerInstr hrun (by rwa [hcount]) ?_
  rw [hops, hop, dispatch_hlt]
  rfl

end Sys2Proof.Machine

open Sys2Proof Sys2Proof.Machine

/-- Settles O21: HLT reads nothing that could fail. -/
theorem hltCompletes : Obligations.HltCompletes := exec_hlt

/-- Settles O30: at every address of memory the step is `exec` of HLT, and a HALTED engine's running flag is false. -/
theorem hltStep : Obligations.HltStep := by
  intro s hrun hpc (hop : opcodeAtPc s = 0x01#8)
  have hstep : step s = exec .hlt s := step_of_hltOpcode hrun hop (by omega)
  exact ⟨_, hstep.trans (hltCompletes s), rfl, rfl⟩

end

section
/-! Exceptions (60_exceptions.md): the record of a register operand past 7, the output channel that nothing reads, and
the turn of `run()` after an error. -/

namespace Sys2Proof.Machine

/-! ### Values standing in the output channel -/

/-- `s` with the values `o` in front of its output, as if they had been emitted before. -/
def State.withEarlierOut (s : State) (o : List Byte) : State := s.withOut (o ++ s.out)

/-- Emitting comes after what stands in the channel (10_state.md R35). -/
theorem emit_withEarlierOut (s : State) (o : List Byte) (v : Byte) :
    emit (s.withEarlierOut o) v = (emit s v).withEarlierOut o :=
  congrArg s.withOut (List.append_assoc o s.out [v])

/-- No instruction reads the output channel. -/
theorem exec_withEarlierOut {s t : State} {i : Instr} (o : List Byte) (h : exec i s = .next t) :
    exec i (s.withEarlierOut o) = .next (t.withEarlierOut o) := by
  cases i with
  | ldi r v =>
    obtain ⟨hr, rfl⟩ | ⟨hr, rfl⟩ := exec_ldi_cases h
    · exact exec_ldi_of_lt _ v hr
    · exact exec_ldi_of_ge _ v hr
  | prn r =>
    obtain ⟨hr, rfl⟩ | ⟨hr, rfl⟩ := exec_prn_cases h
    · rw [exec_prn_of_lt _ hr, emit_withEarlierOut]
      rfl
    · exact exec_prn_of_ge _ hr
  | hlt =>
    obtain rfl := eq_of_exec_hlt h
    exact exec_hlt _
  | add a b =>
    obtain ⟨ha, hb, rfl⟩ | ⟨ha, rfl⟩ | ⟨ha, hb, rfl⟩ := exec_add_cases h
    · exact exec_add_of_lt _ ha hb
    · exact exec_add_of_left_ge _ b ha
    · exact exec_add_of_right_ge _ ha hb

/-- Fetch does not read the output channel (41_engine.md R101, R104). -/
theorem fetch_withEarlierOut (s : State) (o : List Byte) : fetch (s.withEarlierOut o) = fetch s := rfl

/-- The RUNNING engine does not read the output channel. -/
theorem engineStep_withEarlierOut {s t : State} (o : List Byte) (h : engineStep s = .next t) :
    engineStep (s.withEarlierOut o) = .next (t.withEarlierOut o) := by
  rw [engineStep] at h
  rw [engineStep, fetch_withEarlierOut]
  cases hf : fetch s with
  | failed e =>
    rw [hf] at h
    cases h
    rfl
  | unknown ir =>
    rw [hf] at h
    cases h
    rfl
  | instr i =>
    rw [hf] at h
    exact exec_withEarlierOut o h

/-! ### A turn on an engine that is not RUNNING -/

theorem step_idle {s : State} (h : s.state = .idle) : step s = .next (runEntry s) := by rw [step, h]

theorem step_halted {s : State} (h : s.state = .halted) : step s = haltedTurn s := by rw [step, h]

theorem haltedTurn_of_some {s : State} {f : FaultRecord} (h : s.fault = some f) :
    haltedTurn s = if f.fatal then .fault (.aborted f) else .next s := by
  rw [haltedTurn, h]

theorem haltedTurn_of_none {s : State} (h : s.fault = none) : haltedTurn s = .next s := by rw [haltedTurn, h]

/-- A turn on a HALTED engine reads the latch only, not the output channel. -/
theorem haltedTurn_withEarlierOut {s t : State} (o : List Byte) (h : haltedTurn s = .next t) :
    haltedTurn (s.withEarlierOut o) = .next (t.withEarlierOut o) := by
  obtain rfl := eq_of_haltedTurn h
  obtain hnext | ⟨f, hf, hfatal, -⟩ := haltedTurn_cases (t.withEarlierOut o)
  · exact hnext
  · rw [haltedTurn_of_some (s := t) hf, if_pos hfatal] at h
    cases h

end Sys2Proof.Machine

open Sys2Proof Sys2Proof.Machine

/-- Settles O23: each instruction takes the register port's error on the state it began with, and ADD reads `a`
before `b`. -/
theorem registerOperandPast7Aborts : Obligations.RegisterOperandPast7Aborts := by
  intro r v s hpc
  have habort (i : Byte) : abort { kind := .invalidRegister, detail := i.toNat } s =
      s.haltedWith .invalidRegister 2 (some (opcodeAtPc s)) i.toNat true :=
    abort_eq_haltedWith i.toNat hpc rfl
  refine ⟨fun hr => ?_, fun hr hv => ?_⟩
  · rw [← habort]
    exact ⟨exec_ldi_of_ge s v hr, exec_prn_of_ge s hr, exec_add_of_left_ge s v hr⟩
  · rw [← habort]
    exact exec_add_of_right_ge s hr hv

/-- Settles O51, by the state of the engine: entering RUNNING, an engine step and a halted turn leave unread what stands
in the channel. -/
theorem outputIsNeverRead : Obligations.OutputIsNeverRead := by
  intro s t o h
  show step (s.withEarlierOut o) = .next (t.withEarlierOut o)
  cases hs : s.state with
  | idle =>
    rw [step_idle hs] at h
    cases h
    exact step_idle hs
  | running =>
    rw [step_running hs] at h
    exact (step_running (s := s.withEarlierOut o) hs).trans (engineStep_withEarlierOut o h)
  | halted =>
    rw [step_halted hs] at h
    exact (step_halted (s := s.withEarlierOut o) hs).trans (haltedTurn_withEarlierOut o h)

/-- Settles O43: the turn looks at the latch, and at the class of the record in it. -/
theorem abortedTurnIsTheFaultOutcome : Obligations.AbortedTurnIsTheFaultOutcome := by
  intro s f hs
  rw [step_halted hs]
  refine ⟨fun hf hfatal => ?_, fun hf hhandled => ?_, haltedTurn_of_none⟩
  · rw [haltedTurn_of_some hf, if_pos hfatal]
  · rw [haltedTurn_of_some hf, if_neg (Bool.eq_false_iff.1 hhandled)]

end

section
/-! Reset and the host's requests (70_reset_and_hazards.md): what each answers in each engine state, what a snapshot
shows, and how a step halts the engine. -/

namespace Sys2Proof.Machine

/-! ### The host's requests, by the state of the engine -/

/-- Only a RUNNING engine refuses reset (70_reset_and_hazards.md R166). -/
theorem State.hostReset_of_not_running {s : State} (h : s.state ≠ .running) :
    s.hostReset = some (State.resetWith s.params) := by
  cases hs : s.state with
  | idle => rw [State.hostReset, hs]
  | running => exact absurd hs h
  | halted => rw [State.hostReset, hs]

theorem State.hostReset_of_running {s : State} (h : s.state = .running) : s.hostReset = none := by
  rw [State.hostReset, h]

/-- `run()` hands the host the state and the latch its loop ends with (70_reset_and_hazards.md R176). -/
theorem State.hostRun_of_idle {s t : State} (h : s.state = .idle) (hloop : runLoop maxRunSteps (runEntry s) = t) :
    s.hostRun = some (t, { state := t.state, fault := t.fault }) := by
  rw [State.hostRun, h, ← hloop]

theorem State.hostRun_of_halted {s : State} (h : s.state = .halted) :
    s.hostRun = some (s, { state := .halted, fault := s.fault }) := by
  simp [State.hostRun, h]

theorem State.hostRun_of_running {s : State} (h : s.state = .running) : s.hostRun = none := by
  rw [State.hostRun, h]

/-- The cells of a window are the bytes of memory at its addresses (70_reset_and_hazards.md R178). -/
theorem mem_windowCells_iff (m : Memory) (w : Window) (a : Nat) (b : Byte) :
    (a, b) ∈ windowCells m w ↔ w.first ≤ a ∧ a < w.first + w.count ∧ a < 256 ∧ b = m.read a := by
  simp only [windowCells, List.mem_filterMap, List.mem_map, List.mem_range, Option.ite_none_right_eq_some,
    Option.some.injEq, Prod.mk.injEq]
  constructor
  · rintro ⟨_, ⟨k, hk, rfl⟩, hlt, rfl, rfl⟩
    exact ⟨Nat.le_add_right _ _, Nat.add_lt_add_left hk _, hlt, rfl⟩
  · rintro ⟨hfirst, hlast, hlt, rfl⟩
    exact ⟨a, ⟨a - w.first, by omega, Nat.add_sub_cancel' hfirst⟩, hlt, rfl, rfl⟩

/-! ### How a step halts the engine -/

/-- An instruction that halts a RUNNING engine is HLT, which leaves the latch, or takes a fatal error. -/
theorem exec_halting_cases {i : Instr} {s t : State} (hrun : s.state = .running) (h : exec i s = .next t)
    (hhalted : t.state = .halted) : (i = .hlt ∧ t.fault = s.fault) ∨ (i ≠ .hlt ∧ t.aborted) := by
  have hne : s.state ≠ .halted := by simp [hrun]
  cases i with
  | ldi r v =>
    obtain ⟨_, rfl⟩ | ⟨-, rfl⟩ := exec_ldi_cases h
    · exact absurd hhalted hne
    · exact .inr ⟨nofun, rfl, _, rfl, rfl⟩
  | prn r =>
    obtain ⟨_, rfl⟩ | ⟨-, rfl⟩ := exec_prn_cases h
    · exact absurd hhalted hne
    · exact .inr ⟨nofun, rfl, _, rfl, rfl⟩
  | hlt =>
    cases eq_of_exec_hlt h
    exact .inl ⟨rfl, rfl⟩
  | add a b =>
    obtain ⟨_, _, rfl⟩ | ⟨-, rfl⟩ | ⟨-, -, rfl⟩ := exec_add_cases h
    · exact absurd hhalted hne
    · exact .inr ⟨nofun, rfl, _, rfl, rfl⟩
    · exact .inr ⟨nofun, rfl, _, rfl, rfl⟩

/-- The three ways a step halts a RUNNING engine: HLT, an unknown opcode, or a fatal error on bytes that are neither
(70_reset_and_hazards.md R180). -/
theorem halting_step_cases {s t : State} (hrun : s.state = .running) (h : step s = .next t)
    (hhalted : t.state = .halted) :
    (∃ rest, decode s.params.addOpcode (bytesAtPc s) = .instr .hlt rest ∧ t.fault = s.fault) ∨
    (∃ ops rest, decode s.params.addOpcode (bytesAtPc s) = .unknown (opcodeAtPc s) ops rest ∧
      t = haltUnrecognized (opcodeAtPc s) s) ∨
    ((∀ rest, decode s.params.addOpcode (bytesAtPc s) ≠ .instr .hlt rest) ∧
      (∀ ir ops rest, decode s.params.addOpcode (bytesAtPc s) ≠ .unknown ir ops rest) ∧ t.aborted) := by
  obtain ⟨hpc, hd⟩ | ⟨hpc, hpast, hd⟩ | ⟨hfit, rest, ⟨hu, hd⟩ | ⟨i, hi, hd⟩⟩ := decode_bytesAtPc_cases s <;> rw [hd]
  · cases (step_of_pc_past hrun hpc).symm.trans h
    exact .inr (.inr ⟨nofun, nofun, rfl, _, rfl, rfl⟩)
  · cases (step_of_operands_past hrun hpc hpast).symm.trans h
    exact .inr (.inr ⟨nofun, nofun, rfl, _, rfl, rfl⟩)
  · cases (step_of_unknown hrun hfit hu).symm.trans h
    exact .inr (.inl ⟨_, rest, rfl, rfl⟩)
  · rw [step_of_handlerInstr hrun hfit hi] at h
    obtain ⟨rfl, hlatch⟩ | ⟨hne, haborted⟩ := exec_halting_cases hrun h hhalted
    · exact .inl ⟨rest, rfl, hlatch⟩
    · exact .inr (.inr ⟨fun _ heq => hne (DecodeResult.instr.inj heq).1, nofun, haborted⟩)

/-- `0x00` is in no dispatch table, since the opcode byte of ADD takes two operand bytes (30_encoding.md R79). -/
theorem dispatch_zero (addOp : Option AddOpcode) : dispatch addOp 0x00#8 = .unknown := by
  refine (dispatch_eq_unknown_iff addOp _).2 ⟨by decide, by decide, by decide, fun c _ hc => ?_⟩
  have hcount : operandCount 0x00#8 = 2 := hc ▸ c.fields.1
  cases hcount

end Sys2Proof.Machine

open Sys2Proof Sys2Proof.Machine

/-- Settles O47: `run()` ends where the loop of its 129 steps does, and every run has halted by then. -/
theorem runReturnsTheHaltedResult : Obligations.RunReturnsTheHaltedResult := by
  refine fun s => ⟨fun hidle => ?_, State.hostRun_of_running⟩
  obtain ⟨_, t, -, -, hhalted, hloop⟩ := everyRunEndsWithin129Steps (runEntry s) rfl
  exact ⟨t, hhalted ▸ State.hostRun_of_idle hidle hloop, hhalted, hloop⟩

/-- Settles O48, by the three ways a step halts the engine. -/
theorem theLatchSaysWhyTheRunEnded : Obligations.TheLatchSaysWhyTheRunEnded := by
  intro s t hrun hempty _ h hhalted
  obtain ⟨rest, hd, hlatch⟩ | ⟨ops, rest, hd, rfl⟩ | ⟨hnotHlt, hknown, -, f, hf, hfatal⟩ :=
    halting_step_cases hrun h hhalted
  · rw [hd, hlatch, hempty]
    exact ⟨⟨fun _ => ⟨rest, rfl⟩, fun _ => rfl⟩, nofun⟩
  · rw [hd]
    refine ⟨⟨nofun, nofun⟩, ?_⟩
    rintro _ ⟨⟩
    exact ⟨fun _ => ⟨_, ops, rest, rfl, rfl, rfl⟩, fun _ => rfl⟩
  · rw [hf]
    refine ⟨⟨nofun, fun ⟨rest, hd⟩ => absurd hd (hnotHlt rest)⟩, ?_⟩
    rintro _ ⟨⟩
    rw [hfatal]
    exact ⟨nofun, fun ⟨ir, ops, rest, hd, _⟩ => absurd hd (hknown ir ops rest)⟩

/-- Settles O56: the snapshot's pc and registers are the state's own, and its window is `windowCells`. -/
theorem snapshotShowsPcWindowAndRegisters : Obligations.SnapshotShowsPcWindowAndRegisters :=
  fun s a b => ⟨rfl, rfl, mem_windowCells_iff s.mem s.params.snapshotWindow a b⟩

/-- Settles O40, request by request on a HALTED engine. -/
theorem haltedStaysUntilReset : Obligations.HaltedStaysUntilReset := by
  intro s image hs
  have hnotIdle : s.state ≠ .idle := by simp [hs]
  have hnotRunning : s.state ≠ .running := by simp [hs]
  refine ⟨fun t h => eq_of_haltedTurn ?_, State.hostRun_of_halted hs, State.hostLoad_of_not_idle image hnotIdle,
    State.hostReset_of_not_running hnotRunning⟩
  rwa [← step_halted hs]

/-- Settles O41: the turn is the entry of `run()`, which writes RUNNING. -/
theorem idleTurnStartsTheRun : Obligations.IdleTurnStartsTheRun := fun _ => step_idle

/-- Settles O44: the first turn enters RUNNING, and the second comes to the unknown opcode `0x00`. -/
theorem runWithNothingLoadedHaltsAtOnce : Obligations.RunWithNothingLoadedHaltsAtOnce := by
  intro p
  have hentry : step (State.resetWith p) = .next (runEntry (State.resetWith p)) := step_idle rfl
  have hhalt : step (runEntry (State.resetWith p)) =
      .next (haltUnrecognized 0x00#8 (runEntry (State.resetWith p))) :=
    step_of_unknown rfl (show 0 + 1 + operandCount 0x00#8 ≤ 256 by decide) (dispatch_zero p.addOpcode)
  exact ⟨hentry, _, (run_succ hentry 1).trans (run_succ hhalt 0), rfl, rfl, rfl, rfl⟩

/-- Settles O55: what reset gives depends on the parameters only. -/
theorem resetKeepsNothing : Obligations.ResetKeepsNothing := by
  refine fun s s' => ⟨fun hs hs' hparams => ?_, State.hostReset_of_running⟩
  rw [State.hostReset_of_not_running hs, State.hostReset_of_not_running hs', hparams]
  exact ⟨rfl, rfl⟩

end
